-- ==== Sys2Proof/Word.lean ====
section
/-! DEFINITION. The byte, the pixel and the names of the two agents. -/

namespace Sys2Proof

/-- One channel value, one stream byte: 8 bits, bit 7 the most significant (R12, R13). -/
abbrev Byte := BitVec 8

/-- A Pixel is "three 8-bit unsigned channel values (red, green, blue)", no alpha (R21); two pixels
are equal when all three channels are (R13, R172). The 24-bit packing of R13 is never observable, so
a pixel is kept as its three channels. -/
structure Pixel where
  r : Byte
  g : Byte
  b : Byte
  deriving DecidableEq, Repr, Inhabited

/-- The zero pixel (0,0,0) (R13). -/
def Pixel.zero : Pixel := ⟨0, 0, 0⟩

/-- The two kinds of agent of R10. The model holds one of each (log 8). -/
inductive AgentId where
  | encoder
  | decoder
  deriving DecidableEq, Repr, Inhabited

/-- The agent that is not this one. -/
def AgentId.other : AgentId → AgentId
  | .encoder => .decoder
  | .decoder => .encoder

end Sys2Proof
end

