-- ==== Sys2Proof/Syntax.lean ====
section
/-! DEFINITION. The seven opcodes of the compressed stream, one constructor per row of the opcode table. -/

namespace Sys2Proof

/-- An opcode with its operand fields as the stream carries them (R3, R93 to R99). A delta field is
kept as its raw N bits; what it stands for is `sext` of `Machine/Operands.lean` (R101). -/
inductive Instr where
  /-- RGB: three literal channel values (R93). -/
  | rgb (r g b : Byte)
  /-- DIFF2: three 7-bit deltas (R97). -/
  | diff2 (vr vg vb : BitVec 7)
  /-- RUN: the field `count - 1`, 0 to 30 (R98). -/
  | run (f : BitVec 5)
  /-- INDEX: a cache slot number, 0 to 31 (R99). -/
  | index (i : BitVec 5)
  /-- DIFF3: 4-bit deltas of red and blue, a 5-bit delta of green (R95). -/
  | diff3 (vr : BitVec 4) (vg : BitVec 5) (vb : BitVec 4)
  /-- DIFF: three 2-bit deltas (R94). -/
  | diff (vr vg vb : BitVec 2)
  /-- LUMA: a 6-bit delta of green, 4-bit secondary deltas of red and blue (R96). -/
  | luma (vg : BitVec 6) (vgr vgb : BitVec 4)
  deriving DecidableEq, Repr

end Sys2Proof
end

