-- ==== Sys2Proof/WellFormed.lean ====
section
/-! DEFINITION. Which instruction terms stand for an opcode. -/

namespace Sys2Proof

/-- A RUN's field is 0 to 30: value 31 would be the byte 0xFF, which "is reserved for RGB and must
never arise from a valid RUN encoding" (R98, R103). -/
def runFieldOk (f : BitVec 5) : Bool := f != 31

/-- The well-formedness check. RUN's field is the only operand with a forbidden value; every value of
every other field is legal (R92, R103). -/
def Instr.wellFormed : Instr → Bool
  | .rgb _ _ _ => true
  | .diff2 _ _ _ => true
  | .run f => runFieldOk f
  | .index _ => true
  | .diff3 _ _ _ => true
  | .diff _ _ _ => true
  | .luma _ _ _ => true

end Sys2Proof
end

