-- ==== Sys2Proof/Decode.lean ====
section
/-! DEFINITION. From bytes to an opcode (total, rejecting by name), and from an opcode to its bytes. -/

namespace Sys2Proof

/-- The seven opcode names, what the leading byte alone decides (R91). -/
inductive Opcode where
  | rgb | diff2 | run | index | diff3 | diff | luma
  deriving DecidableEq, Repr

/-- Why bytes do not decode. No byte value is illegal (R103), so bytes can only be too few. -/
inductive DecodeError where
  /-- There is no leading byte. -/
  | noLeadingByte
  /-- The leading byte names this opcode and not all of its further bytes are there. -/
  | truncated (op : Opcode)
  deriving DecidableEq, Repr

/-- Bits 7:5 of a leading byte, the 3-bit tag (R91, R306). -/
def tag3 (b0 : Byte) : BitVec 3 := b0.extractLsb' 5 3

/-- Bits 7:6 of a leading byte, the 2-bit tag of DIFF and LUMA (R91, R306). -/
def tag2 (b0 : Byte) : BitVec 2 := b0.extractLsb' 6 2

/-- Classification of a leading byte, in the decoder's order DIFF2, RGB, RUN, INDEX, DIFF3, DIFF,
LUMA (R100). RGB is tested before RUN: 0xFF lies inside RUN's pattern (R306). -/
def classify (b0 : Byte) : Opcode :=
  if tag3 b0 = 0b110 then .diff2
  else if b0 = 0xFF then .rgb
  else if tag3 b0 = 0b111 then .run
  else if tag3 b0 = 0b000 then .index
  else if tag3 b0 = 0b001 then .diff3
  else if tag2 b0 = 0b01 then .diff
  else .luma

/-- The length of an opcode in bytes, from its leading byte only (R92). -/
def Opcode.length : Opcode → Nat
  | .rgb => 4
  | .diff2 => 3
  | .run => 1
  | .index => 1
  | .diff3 => 2
  | .diff => 1
  | .luma => 2

/-- The RGB opcode of its three payload bytes (R93, R101). -/
def decodeRgb (b1 b2 b3 : Byte) : Instr := .rgb b1 b2 b3

/-- The DIFF2 opcode of its three bytes: vr = b1[1:0], b0[4:0]; vg = b2[0], b1[7:2]; vb = b2[7:1]
(R97, R101). -/
def decodeDiff2 (b0 b1 b2 : Byte) : Instr :=
  .diff2 (b1.extractLsb' 0 2 ++ b0.extractLsb' 0 5) (b2.extractLsb' 0 1 ++ b1.extractLsb' 2 6)
    (b2.extractLsb' 1 7)

/-- The RUN opcode of its byte (R98, R101). -/
def decodeRun (b0 : Byte) : Instr := .run (b0.extractLsb' 0 5)

/-- The INDEX opcode of its byte (R99, R101). -/
def decodeIndex (b0 : Byte) : Instr := .index (b0.extractLsb' 0 5)

/-- The DIFF3 opcode of its two bytes: vg = b0[4:0], vr = b1[7:4], vb = b1[3:0] (R95, R101). -/
def decodeDiff3 (b0 b1 : Byte) : Instr :=
  .diff3 (b1.extractLsb' 4 4) (b0.extractLsb' 0 5) (b1.extractLsb' 0 4)

/-- The DIFF opcode of its byte: vr = b0[5:4], vg = b0[3:2], vb = b0[1:0] (R94, R101). -/
def decodeDiff (b0 : Byte) : Instr :=
  .diff (b0.extractLsb' 4 2) (b0.extractLsb' 2 2) (b0.extractLsb' 0 2)

/-- The LUMA opcode of its two bytes: vg = b0[5:0], vgr = b1[7:4], vgb = b1[3:0] (R96, R101). -/
def decodeLuma (b0 b1 : Byte) : Instr :=
  .luma (b0.extractLsb' 0 6) (b1.extractLsb' 4 4) (b1.extractLsb' 0 4)

/-- Decode an opcode of a known class whose leading byte is `b0`, from the bytes after it. -/
def decodeOpcode (op : Opcode) (b0 : Byte) (rest : List Byte) : Except DecodeError (Instr × List Byte) :=
  match op, rest with
  | .rgb, b1 :: b2 :: b3 :: more => .ok (decodeRgb b1 b2 b3, more)
  | .diff2, b1 :: b2 :: more => .ok (decodeDiff2 b0 b1 b2, more)
  | .run, more => .ok (decodeRun b0, more)
  | .index, more => .ok (decodeIndex b0, more)
  | .diff3, b1 :: more => .ok (decodeDiff3 b0 b1, more)
  | .diff, more => .ok (decodeDiff b0, more)
  | .luma, b1 :: more => .ok (decodeLuma b0 b1, more)
  | op, _ => .error (.truncated op)

/-- The decoder's reading of a byte sequence: the first opcode and the bytes after it. The leading
byte alone selects the opcode and its length (R91, R92, R188). -/
def decode : List Byte → Except DecodeError (Instr × List Byte)
  | [] => .error .noLeadingByte
  | b0 :: rest => decodeOpcode (classify b0) b0 rest

/-- The bytes of an opcode, in stream order (R93 to R99; R223, R226, R229 to R233). -/
def encode : Instr → List Byte
  | .rgb r g b => [0xFF, r, g, b]
  | .diff2 vr vg vb =>
    [0b110#3 ++ vr.extractLsb' 0 5, vg.extractLsb' 0 6 ++ vr.extractLsb' 5 2, vb ++ vg.extractLsb' 6 1]
  | .run f => [0b111#3 ++ f]
  | .index i => [0b000#3 ++ i]
  | .diff3 vr vg vb => [0b001#3 ++ vg, vr ++ vb]
  | .diff vr vg vb => [0b01#2 ++ vr ++ vg ++ vb]
  | .luma vg vgr vgb => [0b10#2 ++ vg, vgr ++ vgb]

/-- The class of an instruction: the table row it belongs to. -/
def Instr.opcode : Instr → Opcode
  | .rgb _ _ _ => .rgb
  | .diff2 _ _ _ => .diff2
  | .run _ => .run
  | .index _ => .index
  | .diff3 _ _ _ => .diff3
  | .diff _ _ _ => .diff
  | .luma _ _ _ => .luma

/-- Byte `k` of a word numbered as spec/opcode_table.json numbers it: bit 0 is the least significant
bit of the first byte, the second byte is bits 15 to 8, and so on; bits at `nbits` and above are 0. -/
def tableByte (nbits w k : Nat) : Byte :=
  if 8 * k < nbits then BitVec.ofNat 8 (w >>> (8 * k)) else 0

/-- The four bytes (the longest opcode, R90) of such a word, in stream order. -/
def tableBytes (nbits w : Nat) : List Byte :=
  [tableByte nbits w 0, tableByte nbits w 1, tableByte nbits w 2, tableByte nbits w 3]

/-- The instruction the decoder reads from such a word. -/
def decodeTableWord (nbits w : Nat) : Option Instr :=
  match decode (tableBytes nbits w) with
  | .ok (i, _) => some i
  | .error _ => none

end Sys2Proof
end

