-- ==== Sys2Proof/Config.lean ====
section
/-! DEFINITION. The one parameter of an instance (MAX_WIDTH) and the free values, constants without a body. -/

namespace Sys2Proof

/-- What an implementation fixes. MAX_WIDTH is the depth of the physical line buffer: an open
parameter of R9 (decision D10), 1 to 65535, "a parameter the model takes as an argument". The model
takes it as a field of State that no step writes (log 5). -/
structure Config where
  maxWidth : BitVec 16
  deriving DecidableEq, Repr

/-- The default of R9: every 16-bit WIDTH fits the line buffer. -/
def Config.default : Config := ⟨65535⟩

/-- A free byte: register number `slot` of agent `who`, the `draw`-th time its registers are left
unspecified (R266, U15; log 9). Nothing constrains it. -/
opaque Config.freeByte : (who : AgentId) → (draw slot : Nat) → Byte

/-- A free counter value, for N, RUNCNT, P.COL and the cursors (R266, U15; log 9). -/
opaque Config.freeCount : (who : AgentId) → (draw slot : Nat) → Nat

/-- A free flag value, for P.FIRST (R266, U15; log 9). -/
opaque Config.freeBit : (who : AgentId) → (draw slot : Nat) → Bool

/-- What the host reads as CAUSE while STATE is not FAULT (R260, U14; log 4). -/
opaque Config.freeCauseCode : (who : AgentId) → (draw : Nat) → Nat

/-- What byte `addr` of the decoder's output holds after a FAULT, until a later run writes it (R266, U3;
log 10). -/
opaque Config.freeOutputByte : (draw addr : Nat) → Byte

/-- What the host reads as byte `addr` of the decoder's output while nothing has been written there
(log 10). -/
opaque Config.freeUnwrittenByte : (draw addr : Nat) → Byte

/-- What the 32-bit length port shows when OPOS is 2^32 or more (R31, U18; log 11). -/
opaque Config.freeLength : (draw : Nat) → BitVec 32

end Sys2Proof
end

