-- ==== Sys2Proof/Machine/State.lean ====
section
/-! DEFINITION. Everything the machine holds: two agents with their registers, predictor, cache and streams. -/

namespace Sys2Proof.Machine

open Sys2Proof

/-- A byte memory: (address, byte) pairs, addresses strictly rising. An unlisted address has no value
(R14 "when the stream has no such byte"; log 1). -/
abbrev Memory := List Host.Cell

/-- The run-control status of an agent (R29). -/
inductive RunState where
  | idle
  | busy
  | done
  | fault
  deriving DecidableEq, Repr

/-- The cause register of an agent (R29, R260). `none` is code 0, "reserved so that no cause has it". -/
inductive Cause where
  | none
  | badDimensions
  | initFailure
  | streamUnderrun
  deriving DecidableEq, Repr

/-- One Predictor Iterator instance (R20, R133). -/
structure Predictor where
  /-- P.PRED, the prediction for the position processed next (R23). -/
  pred : Pixel
  /-- P.A, the pixel given to the last `advance` (R25). -/
  a : Pixel
  /-- P.COL, the column of the position processed next (R26). -/
  col : BitVec 16
  /-- P.FIRST, set while that position lies in row 0 (R27). -/
  first : Bool
  /-- P.ROW, one row of history: (column, pixel) pairs, columns strictly rising. A column that
  nothing has written in this run is not listed (R35; log 2). -/
  row : List (Nat × Pixel)
  deriving DecidableEq, Repr

/-- The state every agent has, whichever kind it is (R20). -/
structure Agent where
  /-- WIDTH, written by the host (R33). -/
  width : BitVec 16
  /-- HEIGHT, written by the host (R33). -/
  height : BitVec 16
  /-- STATE (R29). -/
  state : RunState
  /-- CAUSE as it is stored; what the host reads is `Agent.causeCode` (R29, R260; log 4). -/
  cause : Cause
  /-- N, the raster index of the next pixel (R28). -/
  n : BitVec 32
  /-- PREV, the pixel of the preceding raster position (R22). -/
  prev : Pixel
  /-- RUNCNT (R24). -/
  runcnt : BitVec 5
  /-- CACHE[0..31], the colour cache (R34). -/
  cache : Vector Pixel 32
  /-- The agent's private predictor (R10). -/
  p : Predictor
  /-- The model's own: how many free values this agent has drawn (log 9). -/
  draw : Nat
  deriving DecidableEq, Repr

/-- The encoder (R2, R220). -/
structure Encoder where
  core : Agent
  /-- OPOS, the number of bytes emitted in this run (R31). -/
  opos : Nat
  /-- PIXELS, the raw input: bytes 3n, 3n+1, 3n+2 are blue, green, red of pixel n (R36, R62). -/
  pixels : Memory
  /-- STREAM, the compressed output, by offset (R36). -/
  stream : Memory
  deriving DecidableEq, Repr

/-- The decoder (R2, R185). -/
structure Decoder where
  core : Agent
  /-- IPOS, the offset of the next stream byte: the only program counter (R30). -/
  ipos : Nat
  /-- STREAM, the compressed input, by offset; it ends where its listed bytes end (R36, R263). -/
  stream : Memory
  /-- PIXELS, the raw output, laid out as the encoder's input (R36, R62). -/
  pixels : Memory
  deriving DecidableEq, Repr

/-- What the host can do to the core between two pixel steps (log 6). -/
inductive HostOp where
  /-- Write WIDTH and HEIGHT of an agent (R33, R296). -/
  | writeDimensions (who : AgentId) (width height : BitVec 16)
  /-- Hand the encoder a raw pixel buffer, byte 0 first (R293, R299, R62). -/
  | supplyPixels (raw : List Byte)
  /-- Hand the decoder a compressed stream, byte 0 first; it ends where the list ends (R298, R263). -/
  | supplyStream (bytes : List Byte)
  /-- `start` of an agent (R275). -/
  | start (who : AgentId)
  /-- The hardware reset of an agent (R290 (1)). -/
  | hardwareReset (who : AgentId)
  /-- Nothing: the core takes one pixel step. -/
  | pass
  deriving DecidableEq, Repr

/-- The whole machine. -/
structure State where
  /-- The implementation's parameter; no step writes it (R9; log 5). -/
  cfg : Config
  enc : Encoder
  dec : Decoder
  /-- The model's own: the host operations not yet carried out, oldest first (log 6). -/
  pending : List HostOp
  /-- The model's own: the agent that is asked first to take the next pixel step (log 7). -/
  turn : AgentId
  deriving DecidableEq, Repr

/-- Why the model stops. No run of the hardware reaches one of these; the causes the spec gives an
agent (R260) are no `Fault` but a next state with STATE = FAULT. -/
inductive Fault where
  /-- `advance` read a row-buffer entry that nothing has written in this run. Raised by `advance`
  (R35, R137: "a fault that no run reaches"; log 2). Safe. -/
  | rowUnwritten (column : Nat)
  /-- The encoder's pixel step read an input pixel that the host has not supplied. Raised by
  `encoderStep` (R293: the input is the host's duty; log 1). Safe. -/
  | pixelAbsent (index : Nat)
  deriving DecidableEq, Repr

/-- What the model gives no meaning to. -/
inductive Refusal where
  /-- An opcode without a meaning yet. Raised by `exec`. Safe. -/
  | notModelled (mnemonic : String)
  /-- The host writes WIDTH or HEIGHT of a BUSY agent: "outside this spec (no rule covers it)".
  Raised by `hostStep` (R296, U17; log 12). Safe. -/
  | dimensionsWhileBusy (who : AgentId)
  /-- The host replaces the input of a BUSY agent. Raised by `hostStep` (R38, R293; log 13). Safe. -/
  | inputWhileBusy (who : AgentId)
  deriving DecidableEq, Repr

/-- The predictor's reset values (R39): prediction and P.A zero, column 0, first row, no row entry
written. -/
def Predictor.reset : Predictor := { pred := .zero, a := .zero, col := 0, first := true, row := [] }

/-- An agent at power-on (R39, R290 (1)). WIDTH, HEIGHT and CAUSE have no reset value in the spec:
0, 0 and code 0 are the model's choice (log 3, log 4). -/
def Agent.reset : Agent :=
  { width := 0, height := 0, state := .idle, cause := .none, n := 0, prev := .zero, runcnt := 0,
    cache := Vector.replicate 32 .zero, p := .reset, draw := 0 }

/-- The machine right after power-on: both agents at the values of R39 and IDLE, no input, no output,
nothing asked by the host. -/
def State.reset : State :=
  { cfg := .default
    enc := { core := .reset, opos := 0, pixels := [], stream := [] }
    dec := { core := .reset, ipos := 0, stream := [], pixels := [] }
    pending := []
    turn := .decoder }

end Sys2Proof.Machine
end

