-- ==== Sys2Proof/Machine/Flags.lean ====
section
/-! DEFINITION. The predicates that steer a pixel step. There are no condition codes (R32). -/

namespace Sys2Proof.Machine

open Sys2Proof

/-- "Run in flight": RUNCNT > 0 (R24, R32 (2)). -/
def Agent.runInFlight (c : Agent) : Bool := c.runcnt != 0

/-- The position processed next is the last pixel of the image: N = WIDTH x HEIGHT - 1 (R224, R236). -/
def Agent.lastPixel (c : Agent) : Bool := c.n.toNat + 1 == c.width.toNat * c.height.toNat

/-- The column of the pixel just processed is the last of the row: x = WIDTH - 1 (R134). -/
def Predictor.lastColumn (width : BitVec 16) (p : Predictor) : Bool := p.col.toNat + 1 == width.toNat

end Sys2Proof.Machine
end

