-- ==== Sys2Proof/Machine/Operands.lean ====
section
/-! DEFINITION. Channel arithmetic: modulo-256 sums and differences, sign extension, fit tests, the hash, and the pixel each delta form stands for. -/

namespace Sys2Proof.Machine

open Sys2Proof

/-- `p +8 q`, channel by channel, each sum modulo 256 (R165, R176). -/
def addPixel (p q : Pixel) : Pixel := ⟨p.r + q.r, p.g + q.g, p.b + q.b⟩

/-- `p -8 q`, channel by channel, each difference modulo 256 (R165, R166, R176). -/
def subPixel (p q : Pixel) : Pixel := ⟨p.r - q.r, p.g - q.g, p.b - q.b⟩

/-- The larger of two channel values, unsigned (R173). -/
def maxByte (x y : Byte) : Byte := if x ≤ y then y else x

/-- The smaller of two channel values, unsigned (R173). -/
def minByte (x y : Byte) : Byte := if x ≤ y then x else y

/-- `sext_N(f)`: with the sign bit set, bits 7 down to N are forced on; else they are 0 (R167). -/
def sext {n : Nat} (f : BitVec n) : Byte :=
  if f.msb then f.setWidth 8 ||| (0xFF#8 <<< n) else f.setWidth 8

/-- `fits_N(v)`: the top `9 - N` bits of `v` are all 0 or all 1 (R168; conflict C2). -/
def fits (n : Nat) (v : Byte) : Bool :=
  (v >>> (n - 1)).toNat == 0 || (v >>> (n - 1)).toNat == 2 ^ (9 - n) - 1

/-- `v[N-1:0]`, the field the encoder stores for the 8-bit value `v` (R102, R170). -/
def field (n : Nat) (v : Byte) : BitVec n := v.setWidth n

/-- `hash(p) = (p.r + p.g + p.b) mod 32`. The sum may be formed in 8 bits, since 32 divides 256
(R150); its low five bits are the slot. -/
def hash (p : Pixel) : BitVec 5 := (p.r + p.g + p.b).setWidth 5

/-- The pixel of DIFF, DIFF3 and DIFF2: the prediction plus the sign-extended fields (R101, R191,
R192, R194). -/
def deltaPixel {i j k : Nat} (pred : Pixel) (vr : BitVec i) (vg : BitVec j) (vb : BitVec k) : Pixel :=
  addPixel pred ⟨sext vr, sext vg, sext vb⟩

/-- The pixel of LUMA: red and blue deltas are rebuilt from green's "before the predictor is applied"
(R171, R193). -/
def lumaPixel (pred : Pixel) (vg : BitVec 6) (vgr vgb : BitVec 4) : Pixel :=
  addPixel pred ⟨sext vgr + sext vg, sext vg, sext vgb + sext vg⟩

end Sys2Proof.Machine
end

