-- ==== Sys2Proof/Machine/Ops.lean ====
section
/-! DEFINITION. The operations every step is made of: memories, the colour cache, raising a cause, start and reset. -/

namespace Sys2Proof.Machine

open Sys2Proof

/-! ### Sparse memories in canonical form -/

/-- Canonical form: addresses strictly rising, so equal memories are equal lists. -/
abbrev Cells.wf {α : Type} (m : List (Nat × α)) : Prop := m.Pairwise (fun x y => x.1 < y.1)

/-- The canonical form of a byte memory. -/
abbrev Memory.wf (m : Memory) : Prop := Cells.wf m

/-- The entry at address `k`, if something was written there. -/
def Cells.read {α : Type} : List (Nat × α) → Nat → Option α
  | [], _ => none
  | (j, v) :: m, k => if k = j then some v else Cells.read m k

/-- Write entry `k`, keeping the addresses rising. -/
def Cells.write {α : Type} : List (Nat × α) → Nat → α → List (Nat × α)
  | [], k, v => [(k, v)]
  | (j, w) :: m, k, v =>
    if k < j then (k, v) :: (j, w) :: m
    else if k = j then (k, v) :: m
    else (j, w) :: Cells.write m k v

/-- A sequence of bytes as a memory, the first at address `base`. -/
def Memory.ofBytes : (base : Nat) → List Byte → Memory
  | _, [] => []
  | base, b :: bs => (base, b) :: Memory.ofBytes (base + 1) bs

/-- `count` bytes from address `at_` up; `none` as soon as one of them is missing. -/
def Memory.readBytes (m : Memory) : (at_ count : Nat) → Option (List Byte)
  | _, 0 => some []
  | k, n + 1 =>
    match Cells.read m k with
    | none => none
    | some b =>
      match Memory.readBytes m (k + 1) n with
      | none => none
      | some bs => some (b :: bs)

/-- Write bytes from address `at_` up. -/
def Memory.writeBytes (m : Memory) : (at_ : Nat) → List Byte → Memory
  | _, [] => m
  | k, b :: bs => Memory.writeBytes (Cells.write m k b) (k + 1) bs

/-- A memory whose content has become unspecified: every byte it lists takes a free value (R266, U3;
log 10). -/
def Memory.unspecified (draw : Nat) (m : Memory) : Memory :=
  m.map fun cell => (cell.1, Config.freeOutputByte draw cell.1)

/-- `MemRead(PIXELS, n, 1)`: the raw buffer holds blue, green, red at 3n, 3n+1, 3n+2; the conversion to
(r,g,b) is here and nowhere else (R14, R62). -/
def Memory.readPixel (m : Memory) (n : Nat) : Option Pixel :=
  match Cells.read m (3 * n), Cells.read m (3 * n + 1), Cells.read m (3 * n + 2) with
  | some b, some g, some r => some ⟨r, g, b⟩
  | _, _, _ => none

/-- `MemWrite(PIXELS, n, 1, p)`, "converting back to external channel order" (R14, R62, R197). -/
def Memory.writePixel (m : Memory) (n : Nat) (p : Pixel) : Memory :=
  Memory.writeBytes m (3 * n) [p.b, p.g, p.r]

/-! ### The colour cache -/

/-- `CACHE[i]` (R14, R153). -/
def Agent.slot (c : Agent) (i : BitVec 5) : Pixel := c.cache[i.toNat]'i.isLt

/-- The cache update of R154: `CACHE[hash(p)] <- p`, "overwriting any previous occupant". -/
def Agent.remember (p : Pixel) (c : Agent) : Agent :=
  { c with cache := c.cache.set (hash p).toNat p (hash p).isLt }

/-! ### Raising a cause, and start -/

/-- Taking an exception, the one operation: `STATE <- FAULT ; CAUSE <- cause` and nothing else of the
hardware (R266, R267). There is no saved pc, no saved status, no handler and no return (R267, R268): a
faulted agent leaves FAULT by `start` or the hardware reset only. -/
def Agent.raise (cause : Cause) (c : Agent) : Agent :=
  { c with state := .fault, cause := cause, draw := c.draw + 1 }

/-- The decoder takes an exception: its agent raises the cause, and "after any FAULT the content of the
whole decoder output is unspecified to the host". The output belongs to the host (R291), so its bytes turn free
here and stay so, in FAULT and after it, until a later run writes them (R266, U3, R298; log 10). -/
def Decoder.raise (cause : Cause) (d : Decoder) : Decoder :=
  { d with core := d.core.raise cause, pixels := d.pixels.unspecified d.core.draw }

/-- Every register of R39 at its reset value. WIDTH and HEIGHT are not touched (R291); P.ROW's content
becomes unspecified, so no entry has a value (R35, R291; log 2). STATE is the caller's. -/
def Agent.initial (c : Agent) : Agent :=
  { c with cause := .none, n := 0, prev := .zero, runcnt := 0, cache := Vector.replicate 32 .zero,
           p := .reset, draw := c.draw + 1 }

/-- A free pixel for register number `slot`. -/
def freePixel (who : AgentId) (draw slot : Nat) : Pixel :=
  ⟨Config.freeByte who draw (3 * slot), Config.freeByte who draw (3 * slot + 1),
   Config.freeByte who draw (3 * slot + 2)⟩

/-- The registers after a refused start: "their values are unspecified until the next accepted start"
(R266, U15), so each takes a free value and no row entry has one. WIDTH, HEIGHT, STATE and CAUSE are
not among them (log 9). -/
def Agent.unspecified (who : AgentId) (c : Agent) : Agent :=
  { c with
    n := BitVec.ofNat 32 (Config.freeCount who c.draw 0)
    prev := freePixel who c.draw 32
    runcnt := BitVec.ofNat 5 (Config.freeCount who c.draw 1)
    cache := Vector.ofFn fun i : Fin 32 => freePixel who c.draw i.val
    p := { pred := freePixel who c.draw 33
           a := freePixel who c.draw 34
           col := BitVec.ofNat 16 (Config.freeCount who c.draw 2)
           first := Config.freeBit who c.draw 0
           row := [] } }

/-- The cursor (IPOS or OPOS) after a refused start: one of the registers of R39, so free (R266, U15;
log 9). -/
def freeCursor (who : AgentId) (c : Agent) : Nat := Config.freeCount who c.draw 3

/-- What `start` decides (R275, R264). -/
inductive StartVerdict where
  /-- STATE = BUSY: refused, no effect at all on the running agent. -/
  | ignored
  /-- The start is refused with this cause. -/
  | refused (cause : Cause)
  | accepted
  deriving DecidableEq, Repr

/-- The start checks in their order: BUSY, then BadDimensions (R261), then InitFailure (R262); R264,
R275. -/
def Agent.startVerdict (cfg : Config) (c : Agent) : StartVerdict :=
  if c.state = .busy then .ignored
  else if c.width = 0 ∨ c.height = 0 then .refused .badDimensions
  else if cfg.maxWidth < c.width then .refused .initFailure
  else .accepted

/-- `start` of the encoder (R275). A refused start reads no input and writes no output (R261, R262);
an accepted one resets every register of R39 and is BUSY. -/
def Encoder.start (cfg : Config) (e : Encoder) : Encoder :=
  match e.core.startVerdict cfg with
  | .ignored => e
  | .refused cause =>
    { e with core := (e.core.unspecified .encoder).raise cause, opos := freeCursor .encoder e.core }
  | .accepted => { e with core := { e.core.initial with state := .busy }, opos := 0 }

/-- `start` of the decoder (R275). A refused start writes no byte of the output, and the FAULT leaves the
output's content unspecified all the same (R261, R266). -/
def Decoder.start (cfg : Config) (d : Decoder) : Decoder :=
  match d.core.startVerdict cfg with
  | .ignored => d
  | .refused cause =>
    ({ d with core := d.core.unspecified .decoder, ipos := freeCursor .decoder d.core } : Decoder).raise cause
  | .accepted => { d with core := { d.core.initial with state := .busy }, ipos := 0 }

/-- The hardware reset of the encoder: the registers of R39, STATE <- IDLE (R290 (1); log 17). -/
def Encoder.hardwareReset (e : Encoder) : Encoder :=
  { e with core := { e.core.initial with state := .idle }, opos := 0 }

/-- The hardware reset of the decoder (R290 (1); log 17). -/
def Decoder.hardwareReset (d : Decoder) : Decoder :=
  { d with core := { d.core.initial with state := .idle }, ipos := 0 }

end Sys2Proof.Machine
end

