-- ==== Sys2Proof/Machine/Predictor.lean ====
section
/-! DEFINITION. The Predictor Iterator: MED, the state machine `advance`, and the four-case rule it computes. -/

namespace Sys2Proof.Machine

open Sys2Proof

/-- The median-edge-detector prediction of one channel, on unsigned bytes, the two tests in this order
(R131, R173). -/
def med (a b c : Byte) : Byte :=
  if maxByte a b ≤ c then minByte a b
  else if c ≤ minByte a b then maxByte a b
  else (a + b) - c

/-- MED "applied independently per channel" (R131, R176). -/
def medPixel (a b c : Pixel) : Pixel := ⟨med a.r b.r c.r, med a.g b.g c.g, med a.b b.b c.b⟩

/-- Step 1 of `advance`: the delayed write of P.A, "a (pixel before update)", at the previous column;
at column 0 nothing is written (R134, R301). -/
def Predictor.rowDelayed (p : Predictor) : List (Nat × Pixel) :=
  if 1 ≤ p.col.toNat then Cells.write p.row (p.col.toNat - 1) p.a else p.row

/-- Steps 1 and 2: on the last column the pixel just processed is stashed at that column (R134). -/
def Predictor.rowAfter (width : BitVec 16) (cur : Pixel) (p : Predictor) : List (Nat × Pixel) :=
  if p.lastColumn width then Cells.write p.rowDelayed p.col.toNat cur else p.rowDelayed

/-- Step 4: the column cursor advances or wraps (R134). -/
def Predictor.colAfter (width : BitVec 16) (p : Predictor) : BitVec 16 :=
  if p.lastColumn width then 0 else p.col + 1

/-- Step 4: the first-row flag is cleared on a wrap (R134). -/
def Predictor.firstAfter (width : BitVec 16) (p : Predictor) : Bool :=
  if p.lastColumn width then false else p.first

/-- A read of `P.ROW[j]`; reading an entry nothing has written in this run stops the model (R35). -/
def readRow (row : List (Nat × Pixel)) (j : Nat) : Except Fault Pixel :=
  match Cells.read row j with
  | some p => .ok p
  | none => .error (.rowUnwritten j)

/-- Step 5: the prediction for the next position, from the row, column and flag as steps 1 to 4 left
them (R134): case 3 at column 0, case 2 in the first row, else MED of left, above and above-left. -/
def predictNext (cur : Pixel) (col : BitVec 16) (first : Bool) (row : List (Nat × Pixel)) :
    Except Fault Pixel :=
  if col = 0 then readRow row 0
  else if first then .ok cur
  else
    match readRow row col.toNat, readRow row (col.toNat - 1) with
    | .ok b, .ok c => .ok (medPixel cur b c)
    | .error f, _ => .error f
    | .ok _, .error f => .error f

/-- `advance(cur)`: one Predictor Iterator step with the true pixel `cur` (R133, R134). -/
def advance (width : BitVec 16) (cur : Pixel) (p : Predictor) : Except Fault Predictor :=
  match predictNext cur (p.colAfter width) (p.firstAfter width) (p.rowAfter width cur) with
  | .ok pred =>
    .ok { pred := pred, a := cur, col := p.colAfter width, first := p.firstAfter width,
          row := p.rowAfter width cur }
  | .error f => .error f

/-- The prediction of raster index `n` by the four cases of R132, over an image of the given width whose
pixel at a raster index is `px`. No step of the machine calls it: R135 says that `advance` computes it
with one row of history. -/
def predictionRule (width : Nat) (px : Nat → Pixel) (n : Nat) : Pixel :=
  if n = 0 then .zero
  else if n < width then px (n - 1)
  else if n % width = 0 then px (n - width)
  else medPixel (px (n - 1)) (px (n - width)) (px (n - width - 1))

/-- The end of every pixel step of either agent: PREV <- px, advance(px), N <- N + 1, and STATE <- DONE
after the last pixel (R197, R235, R236, R275). -/
def Agent.finish (px : Pixel) (c : Agent) : Except Fault Agent :=
  match advance c.width px c.p with
  | .ok p =>
    .ok { c with prev := px, p := p, n := c.n + 1, state := if c.lastPixel then .done else c.state }
  | .error f => .error f

end Sys2Proof.Machine
end

