-- ==== Sys2Proof/Machine/Retire.lean ====
section
/-! DEFINITION. What every decoder step shares: moving IPOS, the cache write, and step 8. -/

namespace Sys2Proof.Machine

open Sys2Proof

/-- IPOS past an opcode of `k` bytes (R30, R198). -/
def State.skipBytes (k : Nat) (s : State) : State :=
  { s with dec := { s.dec with ipos := s.dec.ipos + k } }

/-- Step 7 of the decoder's pixel step: the cache write of every opcode but RUN (R154, R196). -/
def State.rememberDec (px : Pixel) (s : State) : State :=
  { s with dec := { s.dec with core := s.dec.core.remember px } }

/-- RUNCNT <- f in the decoder (R187, R189). -/
def State.setRuncnt (f : BitVec 5) (s : State) : State :=
  { s with dec := { s.dec with core := { s.dec.core with runcnt := f } } }

/-- The decoder raises a cause and stops; the step it was in is abandoned whole (R263, R266, R267). -/
def State.raiseDec (cause : Cause) (s : State) : State :=
  { s with dec := s.dec.raise cause }

/-- Step 8 of the decoder's pixel step: the pixel goes to the output at raster index N, then PREV,
`advance`, N (R197). -/
def retire (px : Pixel) (s : State) : Host.Outcome State Fault Refusal :=
  match s.dec.core.finish px with
  | .ok core =>
    .next { s with dec := { s.dec with core := core, pixels := s.dec.pixels.writePixel s.dec.core.n.toNat px } }
  | .error f => .fault f

/-- Steps 7 and 8 after an opcode of `k` bytes that is not RUN and stands for `px` (R186, R196, R197). -/
def retireColour (k : Nat) (px : Pixel) (s : State) : Host.Outcome State Fault Refusal :=
  retire px ((s.skipBytes k).rememberDec px)

end Sys2Proof.Machine
end

