-- ==== Sys2Proof/Machine/Delta.lean ====
section
/-! DEFINITION. The delta opcodes: DIFF, DIFF3, LUMA, DIFF2. -/

namespace Sys2Proof.Machine

open Sys2Proof

/-- DIFF2 (R194): three 7-bit deltas from the prediction, 3 bytes. -/
def execDiff2 (vr vg vb : BitVec 7) (s : State) : Host.Outcome State Fault Refusal :=
  retireColour 3 (deltaPixel s.dec.core.p.pred vr vg vb) s

/-- DIFF3 (R192): a 5-bit delta of green, 4-bit deltas of red and blue, 2 bytes. -/
def execDiff3 (vr : BitVec 4) (vg : BitVec 5) (vb : BitVec 4) (s : State) :
    Host.Outcome State Fault Refusal :=
  retireColour 2 (deltaPixel s.dec.core.p.pred vr vg vb) s

/-- DIFF (R191): three 2-bit deltas, 1 byte. -/
def execDiff (vr vg vb : BitVec 2) (s : State) : Host.Outcome State Fault Refusal :=
  retireColour 1 (deltaPixel s.dec.core.p.pred vr vg vb) s

/-- LUMA (R193): a 6-bit delta of green; the deltas of red and blue are relative to it, 2 bytes. -/
def execLuma (vg : BitVec 6) (vgr vgb : BitVec 4) (s : State) : Host.Outcome State Fault Refusal :=
  retireColour 2 (lumaPixel s.dec.core.p.pred vg vgr vgb) s

end Sys2Proof.Machine
end

