-- ==== Sys2Proof/Machine/Literal.lean ====
section
/-! DEFINITION. The literal opcode: RGB. -/

namespace Sys2Proof.Machine

open Sys2Proof

/-- RGB (R195): "the three literal bytes are the pixel directly; no predictor addition". -/
def execRgb (r g b : Byte) (s : State) : Host.Outcome State Fault Refusal :=
  retireColour 4 ⟨r, g, b⟩ s

end Sys2Proof.Machine
end

