-- ==== Sys2Proof/Machine/Reuse.lean ====
section
/-! DEFINITION. The opcodes that repeat a known pixel: RUN and INDEX. -/

namespace Sys2Proof.Machine

open Sys2Proof

/-- RUN (R189): RUNCNT <- f, and this position repeats PREV. "Except when the opcode was RUN": no cache
write. The f further repeats are run-continuation steps. -/
def execRun (f : BitVec 5) (s : State) : Host.Outcome State Fault Refusal :=
  retire s.dec.core.prev ((s.skipBytes 1).setRuncnt f)

/-- INDEX (R190): the pixel is the slot's current contents, read before step 7 writes slot hash(px)
(R155); a slot never written gives (0,0,0) and then slot 0 is written (R158). -/
def execIndex (i : BitVec 5) (s : State) : Host.Outcome State Fault Refusal :=
  retireColour 1 (s.dec.core.slot i) s

end Sys2Proof.Machine
end

