-- ==== Sys2Proof/Machine/Dispatch.lean ====
section
/-! DEFINITION. The meaning of each opcode: one arm per constructor of Instr. -/

namespace Sys2Proof.Machine

open Sys2Proof

-- The decoder executes opcode i, all of whose bytes it has read; RUNCNT was 0 (R186).
def exec (i : Instr) (s : State) : Host.Outcome State Fault Refusal :=
  match i with
  | .rgb r g b => Sys2Proof.Machine.execRgb r g b s
  | .diff2 vr vg vb => Sys2Proof.Machine.execDiff2 vr vg vb s
  | .run f => Sys2Proof.Machine.execRun f s
  | .index i5 => Sys2Proof.Machine.execIndex i5 s
  | .diff3 vr vg vb => Sys2Proof.Machine.execDiff3 vr vg vb s
  | .diff vr vg vb => Sys2Proof.Machine.execDiff vr vg vb s
  | .luma vg vgr vgb => Sys2Proof.Machine.execLuma vg vgr vgb s

end Sys2Proof.Machine
end

