-- ==== Sys2Proof/Machine/Decoder.lean ====
section
/-! DEFINITION. The decoder's pixel step: run continuation, or fetch and execute one opcode. -/

namespace Sys2Proof.Machine

open Sys2Proof

/-- The bytes of the opcode at offset `k`: the leading byte, then "additional bytes as the opcode
requires" (R64, R92, R188). `none` when the stream has not all of them. -/
def fetchBytes (stream : Memory) (k : Nat) : Option (List Byte) :=
  match Cells.read stream k with
  | none => none
  | some b0 => Memory.readBytes stream k (classify b0).length

/-- Fetch: the opcode at offset `k` of the stream, or `none` when a byte of it is missing (R75, R186,
R263). Nothing is written: a missing byte leaves no partial effect (R266; log 18). -/
def fetch (stream : Memory) (k : Nat) : Option Instr :=
  match fetchBytes stream k with
  | none => none
  | some bytes =>
    match decode bytes with
    | .ok (i, _) => some i
    | .error _ => none

/-- A run-continuation step: RUNCNT <- RUNCNT - 1, the pixel is PREV, no byte is read and the cache is
not written; step 8 as always (R187). -/
def runContinuation (s : State) : Host.Outcome State Fault Refusal :=
  retire s.dec.core.prev (s.setRuncnt (s.dec.core.runcnt - 1))

/-- The decoder's pixel step (R186). A missing byte raises StreamUnderrun and abandons the step (R263,
R266). -/
def decoderStep (s : State) : Host.Outcome State Fault Refusal :=
  if s.dec.core.runInFlight then runContinuation s
  else
    match fetch s.dec.stream s.dec.ipos with
    | some i => exec i s
    | none => .next (s.raiseDec .streamUnderrun)

end Sys2Proof.Machine
end

