-- ==== Sys2Proof/Machine/Encoder.lean ====
section
/-! DEFINITION. The encoder's pixel step: the run test, the flushes, the INDEX test and the opcode selection. -/

namespace Sys2Proof.Machine

open Sys2Proof

/-- `emit` of an opcode: its bytes at OPOS, OPOS+1, ..., and OPOS moves past them (R14, R31). -/
def Encoder.emit (i : Instr) (e : Encoder) : Encoder :=
  { e with stream := e.stream.writeBytes e.opos (encode i), opos := e.opos + (encode i).length }

/-- The flush of a run: one RUN opcode for the RUNCNT pixels counted, then RUNCNT <- 0 (R223). -/
def Encoder.flushRun (e : Encoder) : Encoder :=
  { e.emit (.run (e.core.runcnt - 1)) with core := { e.core with runcnt := 0 } }

/-- RUNCNT <- RUNCNT + 1 (R224). -/
def Encoder.count (e : Encoder) : Encoder :=
  { e with core := { e.core with runcnt := e.core.runcnt + 1 } }

/-- Step 2 on a run pixel: count it, and flush at 31 or on the last pixel of the image (R221, R224). -/
def Encoder.countRun (e : Encoder) : Encoder :=
  if e.count.core.runcnt = 31 ∨ e.core.lastPixel then e.count.flushRun else e.count

/-- Step 3: a pending run is flushed before the pixel's own opcode (R225). -/
def Encoder.flushPending (e : Encoder) : Encoder :=
  if e.core.runInFlight then e.flushRun else e

/-- `select`: the opcode for pixel `px` with deltas `v`, the first of the chain DIFF, DIFF3, LUMA, DIFF2
whose values fit, else RGB (R227, R228, R102). -/
def selectOpcode (v px : Pixel) : Instr :=
  if fits 2 v.r && fits 2 v.g && fits 2 v.b then .diff (field 2 v.r) (field 2 v.g) (field 2 v.b)
  else if fits 4 v.r && fits 4 v.b && fits 5 v.g then .diff3 (field 4 v.r) (field 5 v.g) (field 4 v.b)
  else if fits 4 (v.r - v.g) && fits 4 (v.b - v.g) && fits 6 v.g then
    .luma (field 6 v.g) (field 4 (v.r - v.g)) (field 4 (v.b - v.g))
  else if fits 7 v.r && fits 7 v.g && fits 7 v.b then .diff2 (field 7 v.r) (field 7 v.g) (field 7 v.b)
  else .rgb px.r px.g px.b

/-- Steps 4 to 6 on a pixel that is no run pixel: INDEX on a cache hit, else the selected opcode and
the cache write (R152, R226, R228, R234). -/
def Encoder.emitColour (px : Pixel) (e : Encoder) : Encoder :=
  if e.core.slot (hash px) = px then e.emit (.index (hash px))
  else { e.emit (selectOpcode (subPixel px e.core.p.pred) px) with core := e.core.remember px }

/-- Steps 2 to 6 of the encoder's pixel step (R221). The run test is against PREV (R222). -/
def Encoder.opcodes (px : Pixel) (e : Encoder) : Encoder :=
  if px = e.core.prev then e.countRun else e.flushPending.emitColour px

/-- The encoder's pixel step (R221): the pixel at raster index N, steps 2 to 6, then step 7. -/
def encoderStep (s : State) : Host.Outcome State Fault Refusal :=
  match s.enc.pixels.readPixel s.enc.core.n.toNat with
  | none => .fault (.pixelAbsent s.enc.core.n.toNat)
  | some px =>
    match (s.enc.opcodes px).core.finish px with
    | .ok core => .next { s with enc := { s.enc.opcodes px with core := core } }
    | .error f => .fault f

end Sys2Proof.Machine
end

