-- ==== Sys2Proof/Machine/HostPort.lean ====
section
/-! DEFINITION. What the host does to the core between pixel steps, and what it reads from it. -/

namespace Sys2Proof.Machine

open Sys2Proof

/-- WIDTH and HEIGHT of an agent, as the host writes them (R33). -/
def Agent.withDimensions (w h : BitVec 16) (c : Agent) : Agent := { c with width := w, height := h }

/-- One host operation (R275, R290, R296, R298). Dimensions and input of a BUSY agent are held for the
run: writing them then is outside the spec and is refused (R296, U17; log 12, log 13). -/
def hostStep (op : HostOp) (s : State) : Host.Outcome State Fault Refusal :=
  match op with
  | .writeDimensions .encoder w h =>
    if s.enc.core.state = .busy then .refused (.dimensionsWhileBusy .encoder)
    else .next { s with enc := { s.enc with core := s.enc.core.withDimensions w h } }
  | .writeDimensions .decoder w h =>
    if s.dec.core.state = .busy then .refused (.dimensionsWhileBusy .decoder)
    else .next { s with dec := { s.dec with core := s.dec.core.withDimensions w h } }
  | .supplyPixels raw =>
    if s.enc.core.state = .busy then .refused (.inputWhileBusy .encoder)
    else .next { s with enc := { s.enc with pixels := Memory.ofBytes 0 raw } }
  | .supplyStream bytes =>
    if s.dec.core.state = .busy then .refused (.inputWhileBusy .decoder)
    else .next { s with dec := { s.dec with stream := Memory.ofBytes 0 bytes } }
  | .start .encoder => .next { s with enc := s.enc.start s.cfg }
  | .start .decoder => .next { s with dec := s.dec.start s.cfg }
  | .hardwareReset .encoder => .next { s with enc := s.enc.hardwareReset }
  | .hardwareReset .decoder => .next { s with dec := s.dec.hardwareReset }
  | .pass => .next s

/-- The numeric CAUSE codes of R260. -/
def Cause.code : Cause → Nat
  | .none => 0
  | .badDimensions => 1
  | .initFailure => 2
  | .streamUnderrun => 3

/-- CAUSE as the host reads it: the code while STATE is FAULT, an unspecified value otherwise (R260,
U14; log 4). -/
def Agent.causeCode (who : AgentId) (c : Agent) : Nat :=
  if c.state = .fault then c.cause.code else Config.freeCauseCode who c.draw

/-- The 32-bit length port: OPOS when it is below 2^32; for larger outputs the source says nothing
(R31, U18; log 11). -/
def Encoder.lengthPort (e : Encoder) : BitVec 32 :=
  if e.opos < 2 ^ 32 then BitVec.ofNat 32 e.opos else Config.freeLength e.core.draw

/-- The encoder's result at DONE: the OPOS bytes emitted (R236, R277). -/
def Encoder.result (e : Encoder) : Option (List Byte) :=
  if e.core.state = .done then e.stream.readBytes 0 e.opos else none

/-- A byte of the decoder's raw output as the host sees it: what the output holds, which after a FAULT is a
free value until a later run writes the byte (`Decoder.raise`; R266, U3, R298; log 10); where nothing has been
written, a free value. -/
def Decoder.outputByte (d : Decoder) (addr : Nat) : Byte :=
  match Cells.read d.pixels addr with
  | some b => b
  | none => Config.freeUnwrittenByte d.core.draw addr

/-- The decoder's result at DONE: the `width*height*3` raw bytes (R68, R277). DESIGN CHOICE (log 20): the
dimensions are those in WIDTH and HEIGHT when the host reads; the spec is silent on a host that rewrites them at
DONE before it reads. -/
def Decoder.result (d : Decoder) : Option (List Byte) :=
  if d.core.state = .done then
    d.pixels.readBytes 0 (3 * (d.core.width.toNat * d.core.height.toNat))
  else none

end Sys2Proof.Machine
end

