-- ==== Sys2Proof/Machine/Schedule.lean ====
section
/-! DEFINITION. Which agent moves, one step of the core, and placing an opcode where the next step fetches it. -/

namespace Sys2Proof.Machine

open Sys2Proof

/-- An agent takes pixel steps only while BUSY (R29, R267, R288). -/
def State.isBusy (s : State) : AgentId → Bool
  | .encoder => s.enc.core.state == .busy
  | .decoder => s.dec.core.state == .busy

/-- The agent that takes the next pixel step: the one whose turn it is if it is BUSY, else the other if
that one is (log 7). -/
def State.mover (s : State) : Option AgentId :=
  if s.isBusy s.turn then some s.turn
  else if s.isBusy s.turn.other then some s.turn.other
  else none

/-- The state in which the mover's pixel step starts: the other agent's turn is next (log 7). -/
def State.passTurn (who : AgentId) (s : State) : State := { s with turn := who.other }

/-- One pixel step of the core. With no agent BUSY nothing happens: an agent that is IDLE, DONE or in
FAULT "simply does nothing until start" (R288, R267; log 15). -/
def coreStep (s : State) : Host.Outcome State Fault Refusal :=
  match s.mover with
  | some .decoder => decoderStep (s.passTurn .decoder)
  | some .encoder => encoderStep (s.passTurn .encoder)
  | none => .next s

/-- One step of the machine: the oldest pending host operation, or with none (or `pass`) one pixel step
(log 6). -/
def machineStep (s : State) : Host.Outcome State Fault Refusal :=
  match s.pending with
  | [] => coreStep s
  | .pass :: rest => coreStep { s with pending := rest }
  | op :: rest => hostStep op { s with pending := rest }

/-- The decoder can take a pixel step as it stands: BUSY, inside the image. -/
def Decoder.canStep (d : Decoder) : Bool :=
  d.core.state == .busy && decide (d.core.n.toNat < d.core.width.toNat * d.core.height.toNat)
    && decide (d.core.p.col.toNat < d.core.width.toNat)

/-- A decoder that can take a pixel step and is not in a run: as it stands if it can, else as an
accepted start leaves it, on the dimensions it has if a start accepts them and on the largest image
otherwise (log 14). -/
def Decoder.armed (cfg : Config) (d : Decoder) : Decoder :=
  if d.canStep then { d with core := { d.core with runcnt := 0 } }
  else
    let core := { d.core with state := .idle }
    let core := if core.startVerdict cfg = .accepted then core else core.withDimensions cfg.maxWidth 65535
    { d with core := { core.initial with state := .busy }, ipos := 0 }

/-- The opcode whose bits are `w` stands at the decoder's IPOS, and the next step executes it (log 14). -/
def State.placeOpcode (s : State) (nbits w : Nat) : State :=
  let d := s.dec.armed s.cfg
  { s with dec := { d with stream := d.stream.writeBytes d.ipos (tableBytes nbits w) }
           pending := []
           turn := .decoder }

end Sys2Proof.Machine
end

