-- ==== Sys2Proof/Machine/Step.lean ====
section
/-! DEFINITION. The step of the machine, and where an instruction is placed for it. -/

namespace Sys2Proof.Machine

open Sys2Proof

/-- One step: a host operation or one pixel step of one agent (R7, R300). -/
def step (s : State) : Host.Outcome State Fault Refusal := machineStep s

/-- `s` with the instruction of bits `w` where the next step fetches it. There is no boot: a program is
a stream the host supplies and a `start` (R293); this stands for that load (log 14). -/
def State.withFetchWord (s : State) (nbits w : Nat) : State := s.placeOpcode nbits w

end Sys2Proof.Machine
end

