-- ==== Sys2Proof/Safety.lean ====
section
/-! DEFINITION. The terms claims use: what a pixel step does and leaves alone, when it can complete, and the invariants of a run. -/

namespace Sys2Proof.Machine

open Sys2Proof

/-! ### When a pixel step completes -/

/-- The row-buffer entries that the next `advance` reads before writing them have a value, and the
column lies in the row (R137): on the last column that is entry 0 when neither write of the step makes
it, elsewhere, from row 1 on, the entry above the next column and the one left of it. -/
structure Predictor.Readable (width : BitVec 16) (p : Predictor) : Prop where
  inRow : p.col.toNat < width.toNat
  wrap : p.col.toNat + 1 = width.toNat → 2 ≤ p.col.toNat → (Cells.read p.row 0).isSome
  above : p.col.toNat + 1 < width.toNat → p.first = false →
    (Cells.read p.row (p.col.toNat + 1)).isSome ∧ (Cells.read p.row p.col.toNat).isSome

/-! ### What a pixel step does -/

/-- STATE after a pixel step: DONE after the last pixel of the image, else as it was (R236, R275). -/
def stateAfter (c : Agent) : RunState :=
  if c.n.toNat + 1 = c.width.toNat * c.height.toNat then .done else c.state

/-- The registers of an agent after a pixel step with pixel `px` and RUNCNT at `rc` (R197, R235), slot
hash(px) written when `colour` (R154); everything else of the agent is as it was. -/
structure AgentStepped (c c' : Agent) (px : Pixel) (rc : BitVec 5) (colour : Bool) : Prop where
  prev : c'.prev = px
  n : c'.n = c.n + 1
  runcnt : c'.runcnt = rc
  cache : ∀ i, c'.slot i = if colour = true ∧ i = hash px then px else c.slot i
  predictor : advance c.width px c.p = .ok c'.p
  state : c'.state = stateAfter c
  width : c'.width = c.width
  height : c'.height = c.height
  cause : c'.cause = c.cause
  draw : c'.draw = c.draw

/-- From `s` to `t` the decoder took one pixel step: pixel `px` at raster index N, `k` bytes of the
stream, RUNCNT at `rc`, the cache written when `colour`. Every byte of the output outside the pixel's
three, the input, the encoder and the rest of the machine are as they were (R186, R197). -/
structure DecoderStepped (s t : State) (px : Pixel) (k : Nat) (rc : BitVec 5) (colour : Bool) : Prop where
  core : AgentStepped s.dec.core t.dec.core px rc colour
  ipos : t.dec.ipos = s.dec.ipos + k
  blue : Cells.read t.dec.pixels (3 * s.dec.core.n.toNat) = some px.b
  green : Cells.read t.dec.pixels (3 * s.dec.core.n.toNat + 1) = some px.g
  red : Cells.read t.dec.pixels (3 * s.dec.core.n.toNat + 2) = some px.r
  output : ∀ a, a < 3 * s.dec.core.n.toNat ∨ 3 * s.dec.core.n.toNat + 3 ≤ a →
    Cells.read t.dec.pixels a = Cells.read s.dec.pixels a
  input : t.dec.stream = s.dec.stream
  encoder : t.enc = s.enc
  cfg : t.cfg = s.cfg
  pending : t.pending = s.pending
  turn : t.turn = s.turn

/-- From `s` to `t` the encoder took one pixel step with pixel `px`: the bytes `out` appended at OPOS,
RUNCNT at `rc`, the cache written when `colour`. Every byte of the stream outside those, the input, the
decoder and the rest of the machine are as they were (R221). -/
structure EncoderStepped (s t : State) (px : Pixel) (out : List Byte) (rc : BitVec 5) (colour : Bool) :
    Prop where
  core : AgentStepped s.enc.core t.enc.core px rc colour
  opos : t.enc.opos = s.enc.opos + out.length
  emitted : ∀ k (h : k < out.length), Cells.read t.enc.stream (s.enc.opos + k) = some out[k]
  output : ∀ a, a < s.enc.opos ∨ s.enc.opos + out.length ≤ a →
    Cells.read t.enc.stream a = Cells.read s.enc.stream a
  input : t.enc.pixels = s.enc.pixels
  decoder : t.dec = s.dec
  cfg : t.cfg = s.cfg
  pending : t.pending = s.pending
  turn : t.turn = s.turn

/-- A decoder with no run in flight and opcode `i` at IPOS executes it when all its bytes are there, and
raises StreamUnderrun when the leading byte is there and a later one is not (R186, R188, R263). -/
def RunsWhole (i : Instr) : Prop :=
  ∀ s : State, s.dec.core.runcnt = 0 →
    (s.dec.stream.readBytes s.dec.ipos (encode i).length = some (encode i) → decoderStep s = exec i s) ∧
    (∀ b0, (encode i).head? = some b0 → Cells.read s.dec.stream s.dec.ipos = some b0 →
      (∃ j, j < (encode i).length ∧ Cells.read s.dec.stream (s.dec.ipos + j) = none) →
      ∃ t, decoderStep s = .next t ∧ t.dec.core.state = .fault ∧ t.dec.core.cause = .streamUnderrun)

/-! ### Numbers the rules use -/

/-- The 8-bit value of an N-bit delta field as R167 writes it "as a number". -/
def signedField (n f : Nat) : Nat := if f < 2 ^ (n - 1) then f else f + 256 - 2 ^ n

/-- `x` lies in the N-bit two's-complement range (R168, R169). -/
def inRange (n : Nat) (v : Byte) : Prop := -(2 ^ (n - 1) : Int) ≤ v.toInt ∧ v.toInt ≤ 2 ^ (n - 1) - 1

/-- The low N bits of a byte, the field value it is stored as (R102). -/
def lowBits (n : Nat) (v : Byte) : Nat := v.toNat % 2 ^ n

/-- The RUN byte of a pending run of `rc` pixels, if one is pending (R223, R225). -/
def pendingRun (rc : BitVec 5) : List Byte :=
  if 0 < rc.toNat then [BitVec.ofNat 8 (0xE0 + (rc.toNat - 1))] else []

/-- The Predictor Iterator alone, from reset, after `n` calls of `advance` with the pixels of an image in
raster order (R133, R135). -/
def predictorAfter (w : BitVec 16) (px : Nat → Pixel) : Nat → Except Fault Predictor
  | 0 => .ok .reset
  | n + 1 =>
    match predictorAfter w px n with
    | .ok p => advance w (px n) p
    | .error f => .error f

/-! ### Reset -/

/-- The registers the spec gives a reset value, at that value, and STATE IDLE (R39, R290). -/
structure Agent.AtReset (c : Agent) : Prop where
  state : c.state = .idle
  n : c.n = 0
  prev : c.prev = .zero
  runcnt : c.runcnt = 0
  cache : ∀ i, c.slot i = .zero
  pred : c.p.pred = .zero
  left : c.p.a = .zero
  col : c.p.col = 0
  first : c.p.first = true

/-! ### Invariants -/

/-- Every memory of the machine is in canonical form, the row buffers too. -/
structure State.Canonical (s : State) : Prop where
  encPixels : s.enc.pixels.wf
  encStream : s.enc.stream.wf
  decStream : s.dec.stream.wf
  decPixels : s.dec.pixels.wf
  encRow : Cells.wf s.enc.core.p.row
  decRow : Cells.wf s.dec.core.p.row

/-- The counters of an agent inside a run (R40 (a), (b), (f), (g); R33): legal dimensions, N inside the
image, column and first-row flag as N says, RUNCNT at most 30. -/
structure Agent.Counting (cfg : Config) (c : Agent) : Prop where
  widthPos : 0 < c.width.toNat
  heightPos : 0 < c.height.toNat
  widthFits : c.width.toNat ≤ cfg.maxWidth.toNat
  inside : c.n.toNat < c.width.toNat * c.height.toNat
  col : c.p.col.toNat = c.n.toNat % c.width.toNat
  first : c.p.first = decide (c.n.toNat < c.width.toNat)
  runcnt : c.runcnt.toNat ≤ 30

/-- Every BUSY agent counts as R40 says; an encoder has emitted at most 4 bytes for each pixel that is
not in a pending run, and something unless all pixels are (R238); a decoder has read at most 4 bytes a
pixel (R30). -/
structure State.Counting (s : State) : Prop where
  enc : s.enc.core.state = .busy → s.enc.core.Counting s.cfg ∧ s.enc.core.runcnt.toNat ≤ s.enc.core.n.toNat ∧
    s.enc.opos + 4 * s.enc.core.runcnt.toNat ≤ 4 * s.enc.core.n.toNat ∧
    (s.enc.opos = 0 → s.enc.core.runcnt.toNat = s.enc.core.n.toNat)
  dec : s.dec.core.state = .busy → s.dec.core.Counting s.cfg ∧ s.dec.ipos ≤ 4 * s.dec.core.n.toNat

/-- "Every slot holds either the zero pixel or a pixel p with hash(p) = h" (R156, R40 (e)). -/
def Agent.CacheHashed (c : Agent) : Prop := ∀ i, c.slot i = .zero ∨ hash (c.slot i) = i

/-- The cache of every BUSY agent is as R156 says. -/
structure State.CacheHashed (s : State) : Prop where
  enc : s.enc.core.state = .busy → s.enc.core.CacheHashed
  dec : s.dec.core.state = .busy → s.dec.core.CacheHashed

/-- What the registers of an agent hold of the image `px` of true pixels at raster indices below N
(R40 (c), (d); R135): PREV and P.A the pixel before, P.PRED the four-case prediction of R132, and the
row buffer one row of history, the current row up to two columns back and the row above from there. -/
structure Agent.History (px : Nat → Pixel) (c : Agent) : Prop where
  prevZero : c.n.toNat = 0 → c.prev = .zero
  prev : 0 < c.n.toNat → c.prev = px (c.n.toNat - 1)
  left : 0 < c.n.toNat → c.p.a = c.prev
  pred : c.p.pred = predictionRule c.width.toNat px c.n.toNat
  rowBefore : ∀ j, j + 2 ≤ c.n.toNat % c.width.toNat →
    Cells.read c.p.row j = some (px (c.n.toNat / c.width.toNat * c.width.toNat + j))
  rowAbove : ∀ j, c.n.toNat % c.width.toNat ≤ j + 1 → j < c.width.toNat →
    c.width.toNat ≤ c.n.toNat →
    Cells.read c.p.row j = some (px ((c.n.toNat / c.width.toNat - 1) * c.width.toNat + j))
  rowFresh : ∀ j, c.n.toNat % c.width.toNat ≤ j + 1 → c.n.toNat < c.width.toNat →
    Cells.read c.p.row j = none

/-- The image an encoder has been given: its raw input, as pixels. -/
def Encoder.image (e : Encoder) (n : Nat) : Pixel := (e.pixels.readPixel n).getD .zero

/-- The image a decoder has reconstructed so far: its raw output, as pixels. -/
def Decoder.image (d : Decoder) (n : Nat) : Pixel := (d.pixels.readPixel n).getD .zero

/-- Every BUSY agent's registers hold the history of its image; the decoder has written every pixel
below N (R266), and the pixels of the encoder's pending run all equal PREV (R40 (f)). -/
structure State.History (s : State) : Prop where
  enc : s.enc.core.state = .busy → s.enc.core.History s.enc.image ∧
    ∀ j, j < s.enc.core.runcnt.toNat → s.enc.image (s.enc.core.n.toNat - 1 - j) = s.enc.core.prev
  dec : s.dec.core.state = .busy → s.dec.core.History s.dec.image ∧
    ∀ k, k < s.dec.core.n.toNat → (s.dec.pixels.readPixel k).isSome

/-- The host has done its duty towards a BUSY encoder: every pixel of the image is in the input (R293). -/
def Encoder.InputReady (e : Encoder) : Prop :=
  e.core.state = .busy → ∀ k, k < e.core.width.toNat * e.core.height.toNat → (e.pixels.readPixel k).isSome

/-- All the invariants of a run together. -/
structure State.Sound (s : State) : Prop where
  canonical : s.Canonical
  counting : s.Counting
  hashed : s.CacheHashed
  history : s.History

/-- The part of an agent's state that encoder and decoder hold alike after the same number of pixel
steps on an image and its canonical stream (R40 (h), R303): cache, predictor, previous pixel, index. -/
structure LockStep (e d : Agent) : Prop where
  width : e.width = d.width
  height : e.height = d.height
  n : e.n = d.n
  prev : e.prev = d.prev
  cache : e.cache = d.cache
  predictor : e.p = d.p

end Sys2Proof.Machine
end

