-- ==== Sys2Proof/Certificates/Slice0/Obligations.lean ====
section
/-! DEFINITION. The statements for the provers. -/

open Sys2Proof Sys2Proof.Machine

/-! ### Encoding -/

/-- Decoding the bytes of a well-formed opcode gives it back, whatever follows them in the stream
(30_encoding.md sections 1 and 2; every operand at every value the encoding admits). -/
def Obligations.DecodeOfEncode : Prop :=
  ∀ (i : Instr) (rest : List Byte), i.wellFormed = true → decode (encode i ++ rest) = .ok (i, rest)

/-- The other direction: whatever bytes decode, they begin with the encoding of the well-formed opcode
they decode to, and the rest is left. Every leading byte has one meaning (R91). -/
def Obligations.EncodeOfDecode : Prop :=
  ∀ (bytes rest : List Byte) (i : Instr), decode bytes = .ok (i, rest) →
    i.wellFormed = true ∧ bytes = encode i ++ rest

/-- The partition of the 256 leading bytes by R91's ranges (its table is the spec's own derivation from
R90), and the length of each class. -/
def Obligations.LeadingBytePartition : Prop :=
  ∀ b : Byte,
    (b.toNat ≤ 0x1F → classify b = .index ∧ (classify b).length = 1) ∧
    (0x20 ≤ b.toNat → b.toNat ≤ 0x3F → classify b = .diff3 ∧ (classify b).length = 2) ∧
    (0x40 ≤ b.toNat → b.toNat ≤ 0x7F → classify b = .diff ∧ (classify b).length = 1) ∧
    (0x80 ≤ b.toNat → b.toNat ≤ 0xBF → classify b = .luma ∧ (classify b).length = 2) ∧
    (0xC0 ≤ b.toNat → b.toNat ≤ 0xDF → classify b = .diff2 ∧ (classify b).length = 3) ∧
    (0xE0 ≤ b.toNat → b.toNat ≤ 0xFE → classify b = .run ∧ (classify b).length = 1) ∧
    (b.toNat = 0xFF → classify b = .rgb ∧ (classify b).length = 4)

/-- R92 and R103: the leading byte alone decides the opcode and its length (1 for INDEX, DIFF, RUN; 2 for
DIFF3, LUMA; 3 for DIFF2; 4 for RGB); four bytes of any values decode, so no byte is illegal; and no RUN
encodes as 0xFF. -/
def Obligations.EveryByteIsLegal : Prop :=
  (∀ (b0 b1 b2 b3 : Byte) (rest : List Byte), ∃ i,
    i.wellFormed = true ∧ i.opcode = classify b0 ∧
    decode (b0 :: b1 :: b2 :: b3 :: rest) = .ok (i, (b1 :: b2 :: b3 :: rest).drop ((classify b0).length - 1))) ∧
  (Opcode.index.length = 1 ∧ Opcode.diff.length = 1 ∧ Opcode.run.length = 1 ∧ Opcode.diff3.length = 2 ∧
    Opcode.luma.length = 2 ∧ Opcode.diff2.length = 3 ∧ Opcode.rgb.length = 4) ∧
  (∀ f : BitVec 5, (Instr.run f).wellFormed = true → encode (.run f) ≠ [0xFF])

/-- The bytes of the one- and two-byte opcodes and of RGB, as numbers (R93 to R96, R98, R99). -/
def Obligations.OpcodeFormats : Prop :=
  (∀ r g b : Byte, encode (.rgb r g b) = [0xFF, r, g, b]) ∧
  (∀ vr vg vb : BitVec 2, encode (.diff vr vg vb) =
    [BitVec.ofNat 8 (0x40 + 16 * vr.toNat + 4 * vg.toNat + vb.toNat)]) ∧
  (∀ (vr : BitVec 4) (vg : BitVec 5) (vb : BitVec 4), encode (.diff3 vr vg vb) =
    [BitVec.ofNat 8 (0x20 + vg.toNat), BitVec.ofNat 8 (16 * vr.toNat + vb.toNat)]) ∧
  (∀ (vg : BitVec 6) (vgr vgb : BitVec 4), encode (.luma vg vgr vgb) =
    [BitVec.ofNat 8 (0x80 + vg.toNat), BitVec.ofNat 8 (16 * vgr.toNat + vgb.toNat)]) ∧
  (∀ f : BitVec 5, f.toNat ≤ 30 →
    encode (.run f) = [BitVec.ofNat 8 (0xE0 + f.toNat)] ∧ encode (.run f) ≠ [0xFF]) ∧
  (∀ i : BitVec 5, encode (.index i) = [BitVec.ofNat 8 i.toNat])

/-- DIFF2's three bytes (30_encoding.md section 1; conflict C1): each byte as arithmetic on the 7-bit fields. That
they are the little-endian bytes of one 24-bit number is the spec's own derivation from its table. -/
def Obligations.Diff2Format : Prop :=
  ∀ vr vg vb : BitVec 7, ∃ b0 b1 b2 : Byte,
    encode (.diff2 vr vg vb) = [b0, b1, b2] ∧
    b0.toNat = 0xC0 + vr.toNat % 32 ∧
    b1.toNat = 4 * (vg.toNat % 64) + vr.toNat / 32 ∧
    b2.toNat = 2 * vb.toNat + vg.toNat / 64 ∧
    b0.toNat + 256 * b1.toNat + 65536 * b2.toNat =
      vr.toNat % 32 + 6 * 32 + vr.toNat / 32 * 256 + vg.toNat * 1024 + vb.toNat * 131072

/-- A few words of 95_test_vectors.md (V-S39, V-S15, V-S20, V-S11, V-S3, V-R4, V-D8). -/
def Obligations.OpcodeWords : Prop :=
  decode [0xC9, 0x04, 0xF4] = .ok (.diff2 0b0001001 0b0000001 0b1111010, []) ∧
  decode [0xC0, 0xBC, 0x01] = .ok (.diff2 0 0b1101111 0, []) ∧
  decode [0xA0, 0x87] = .ok (.luma 0b100000 0b1000 0b0111, []) ∧
  decode [0x30, 0x88] = .ok (.diff3 0b1000 0b10000 0b1000, []) ∧
  decode [0x71] = .ok (.diff 0b11 0b00 0b01, []) ∧
  decode [0xFE] = .ok (.run 30, []) ∧
  decode [0x1D] = .ok (.index 29, []) ∧
  decode [0xFF, 0xFF, 0xFF, 0xFF] = .ok (.rgb 255 255 255, [])

/-! ### Channel arithmetic, hash, MED -/

/-- R165: 8-bit sums and differences are taken modulo 256, channel by channel. -/
def Obligations.ChannelArithmeticWraps : Prop :=
  ∀ p q : Pixel,
    (addPixel p q).r.toNat = (p.r.toNat + q.r.toNat) % 256 ∧
    (addPixel p q).g.toNat = (p.g.toNat + q.g.toNat) % 256 ∧
    (addPixel p q).b.toNat = (p.b.toNat + q.b.toNat) % 256 ∧
    ((subPixel p q).r.toNat : Int) = ((p.r.toNat : Int) - q.r.toNat) % 256 ∧
    ((subPixel p q).g.toNat : Int) = ((p.g.toNat : Int) - q.g.toNat) % 256 ∧
    ((subPixel p q).b.toNat : Int) = ((p.b.toNat : Int) - q.b.toNat) % 256

/-- R166: the deltas are `p -8 q` channel by channel, and adding them to the prediction gives the pixel. -/
def Obligations.DeltasInvert : Prop :=
  ∀ p q : Pixel, subPixel p q = ⟨p.r - q.r, p.g - q.g, p.b - q.b⟩ ∧ addPixel q (subPixel p q) = p

/-- R167, for every width in use: bit N-1 is the sign bit, bits 7 to N become copies of it, the low bits
stay; as a number and as a signed value. -/
def Obligations.SignExtension : Prop :=
  (∀ f : BitVec 2, (sext f).toNat = signedField 2 f.toNat ∧ (sext f).toInt = f.toInt ∧
    (f.msb = true → sext f = f.setWidth 8 ||| 0xFC) ∧ (f.msb = false → sext f = f.setWidth 8)) ∧
  (∀ f : BitVec 4, (sext f).toNat = signedField 4 f.toNat ∧ (sext f).toInt = f.toInt ∧
    (f.msb = true → sext f = f.setWidth 8 ||| 0xF0) ∧ (f.msb = false → sext f = f.setWidth 8)) ∧
  (∀ f : BitVec 5, (sext f).toNat = signedField 5 f.toNat ∧ (sext f).toInt = f.toInt ∧
    (f.msb = true → sext f = f.setWidth 8 ||| 0xE0) ∧ (f.msb = false → sext f = f.setWidth 8)) ∧
  (∀ f : BitVec 6, (sext f).toNat = signedField 6 f.toNat ∧ (sext f).toInt = f.toInt ∧
    (f.msb = true → sext f = f.setWidth 8 ||| 0xC0) ∧ (f.msb = false → sext f = f.setWidth 8)) ∧
  (∀ f : BitVec 7, (sext f).toNat = signedField 7 f.toNat ∧ (sext f).toInt = f.toInt ∧
    (f.msb = true → sext f = f.setWidth 8 ||| 0x80) ∧ (f.msb = false → sext f = f.setWidth 8))

/-- R168, for every width in use: `fits_N(v)` holds exactly when the signed value of `v` lies in the
N-bit range, exactly when its top 9-N bits are all 0 or all 1, and exactly when sign-extending its low N
bits gives `v` back (R170). -/
def Obligations.FitTest : Prop :=
  ∀ n, n = 2 ∨ n = 4 ∨ n = 5 ∨ n = 6 ∨ n = 7 → ∀ v : Byte,
    (fits n v = true ↔ inRange n v) ∧
    (fits n v = true ↔ v.toNat / 2 ^ (n - 1) = 0 ∨ v.toNat / 2 ^ (n - 1) = 2 ^ (9 - n) - 1) ∧
    (fits n v = true ↔ sext (field n v) = v)

/-- The hash is the sum of the three channels modulo 32 (41_color_cache.md section 1). That the sum may be formed
in an 8-bit register, or from the low 5 bits of the channels, is the spec's own derivation (256 is a multiple of
32). -/
def Obligations.HashModulo32 : Prop :=
  ∀ p : Pixel,
    (hash p).toNat = (p.r.toNat + p.g.toNat + p.b.toNat) % 32 ∧
    (hash p).toNat = ((p.r + p.g) + p.b).toNat % 32 ∧
    (hash p).toNat = (p.r.toNat % 32 + p.g.toNat % 32 + p.b.toNat % 32) % 32

/-- MED of one channel by its three branches in order, and of a pixel channel by channel (40_predictor.md section
1). That the third branch never wraps and lies strictly between the smaller and the larger neighbour is the spec's
own derivation from the two failed tests. -/
def Obligations.MedianEdgeDetector : Prop :=
  (∀ a b c : Byte,
    (max a.toNat b.toNat ≤ c.toNat → (med a b c).toNat = min a.toNat b.toNat) ∧
    (c.toNat < max a.toNat b.toNat → c.toNat ≤ min a.toNat b.toNat →
      (med a b c).toNat = max a.toNat b.toNat) ∧
    (min a.toNat b.toNat < c.toNat → c.toNat < max a.toNat b.toNat →
      med a b c = (a + b) - c ∧
      ((med a b c).toNat : Int) = (a.toNat : Int) + b.toNat - c.toNat ∧
      min a.toNat b.toNat < (med a b c).toNat ∧ (med a b c).toNat < max a.toNat b.toNat)) ∧
  (∀ a b c : Pixel, medPixel a b c = ⟨med a.r b.r c.r, med a.g b.g c.g, med a.b b.b c.b⟩)

/-- R171: LUMA's secondary deltas are the red and blue deltas minus green's; adding green's back rebuilds
them exactly; the decoder's LUMA pixel by its three sums; the encoder's tests and fields; and that pixel of those
fields is the prediction plus the deltas. -/
def Obligations.LumaRebuildsDeltas : Prop :=
  (∀ vr vg : Byte, (vr - vg) + vg = vr) ∧
  (∀ (q : Pixel) (fg : BitVec 6) (fgr fgb : BitVec 4),
    lumaPixel q fg fgr fgb =
      ⟨q.r + (sext fgr + sext fg), q.g + sext fg, q.b + (sext fgb + sext fg)⟩) ∧
  (∀ v px : Pixel, (∃ f g h, selectOpcode v px = .luma f g h) →
    fits 4 (v.r - v.g) = true ∧ fits 4 (v.b - v.g) = true ∧ fits 6 v.g = true ∧
    selectOpcode v px = .luma (field 6 v.g) (field 4 (v.r - v.g)) (field 4 (v.b - v.g))) ∧
  (∀ (q : Pixel) (vr vg vb : Byte),
    fits 6 vg = true → fits 4 (vr - vg) = true → fits 4 (vb - vg) = true →
    lumaPixel q (field 6 vg) (field 4 (vr - vg)) (field 4 (vb - vg)) = addPixel q ⟨vr, vg, vb⟩)

/-! ### The Predictor Iterator -/

/-- `advance` by its five steps (40_predictor.md section 2; that nothing is written at column 0 is the
spec's decision D7): it completes when the entries it reads have a value, and then P.ROW, P.A, P.COL,
P.FIRST and P.PRED are as listed, and no other row entry changes. -/
def Obligations.AdvanceStateMachine : Prop :=
  ∀ (w : BitVec 16) (cur : Pixel) (p : Predictor), p.Readable w →
    ∃ p', advance w cur p = .ok p' ∧
      p'.a = cur ∧
      (p.col.toNat + 1 = w.toNat → p'.col = 0 ∧ p'.first = false ∧
        Cells.read p'.row p.col.toNat = some cur ∧ Cells.read p'.row 0 = some p'.pred) ∧
      (p.col.toNat + 1 < w.toNat → p'.col.toNat = p.col.toNat + 1 ∧ p'.first = p.first ∧
        Cells.read p'.row p.col.toNat = Cells.read p.row p.col.toNat ∧
        (p.first = true → p'.pred = cur) ∧
        (p.first = false → ∀ b c, Cells.read p.row (p.col.toNat + 1) = some b →
          Cells.read p.row p.col.toNat = some c → p'.pred = medPixel cur b c)) ∧
      (0 < p.col.toNat → Cells.read p'.row (p.col.toNat - 1) = some p.a) ∧
      (∀ j, j ≠ p.col.toNat → j + 1 ≠ p.col.toNat → Cells.read p'.row j = Cells.read p.row j)

/-- R132, computed by the state machine with one row of history (R133): fed the true pixels of an image
in raster order, after y*w + x calls the Predictor Iterator holds the prediction of the four cases for
position (y, x). -/
def Obligations.PredictionByFourCases : Prop :=
  ∀ (w : BitVec 16) (px : Nat → Nat → Pixel) (y x : Nat), x < w.toNat →
    ∃ p, predictorAfter w (fun n => px (n / w.toNat) (n % w.toNat)) (y * w.toNat + x) = .ok p ∧
      (y = 0 → x = 0 → p.pred = Pixel.zero) ∧
      (y = 0 → 1 ≤ x → p.pred = px 0 (x - 1)) ∧
      (1 ≤ y → x = 0 → p.pred = px (y - 1) 0) ∧
      (1 ≤ y → 1 ≤ x → p.pred =
        ⟨med (px y (x - 1)).r (px (y - 1) x).r (px (y - 1) (x - 1)).r,
         med (px y (x - 1)).g (px (y - 1) x).g (px (y - 1) (x - 1)).g,
         med (px y (x - 1)).b (px (y - 1) x).b (px (y - 1) (x - 1)).b⟩)

/-! ### The seven opcodes: what each does, what it leaves, and that it completes -/

/-- RGB (R195): the three literal bytes are the pixel; slot hash(px) takes it; 4 bytes; frame in
`DecoderStepped`. -/
def Obligations.RgbResult : Prop :=
  ∀ (r g b : Byte) (s : State), s.dec.core.p.Readable s.dec.core.width →
    RunsWhole (.rgb r g b) ∧
    ∃ t, exec (.rgb r g b) s = .next t ∧ DecoderStepped s t ⟨r, g, b⟩ 4 s.dec.core.runcnt true

/-- DIFF2 (R194): each channel is the prediction's plus the sign-extended 7-bit field, modulo 256. -/
def Obligations.Diff2Result : Prop :=
  ∀ (vr vg vb : BitVec 7) (s : State), s.dec.core.p.Readable s.dec.core.width →
    RunsWhole (.diff2 vr vg vb) ∧
    ∃ t px, exec (.diff2 vr vg vb) s = .next t ∧ DecoderStepped s t px 3 s.dec.core.runcnt true ∧
      px.r.toNat = (s.dec.core.p.pred.r.toNat + signedField 7 vr.toNat) % 256 ∧
      px.g.toNat = (s.dec.core.p.pred.g.toNat + signedField 7 vg.toNat) % 256 ∧
      px.b.toNat = (s.dec.core.p.pred.b.toNat + signedField 7 vb.toNat) % 256

/-- DIFF3 (R192): green by a 5-bit field, red and blue by 4-bit fields. -/
def Obligations.Diff3Result : Prop :=
  ∀ (vr : BitVec 4) (vg : BitVec 5) (vb : BitVec 4) (s : State),
    s.dec.core.p.Readable s.dec.core.width →
    RunsWhole (.diff3 vr vg vb) ∧
    ∃ t px, exec (.diff3 vr vg vb) s = .next t ∧ DecoderStepped s t px 2 s.dec.core.runcnt true ∧
      px.r.toNat = (s.dec.core.p.pred.r.toNat + signedField 4 vr.toNat) % 256 ∧
      px.g.toNat = (s.dec.core.p.pred.g.toNat + signedField 5 vg.toNat) % 256 ∧
      px.b.toNat = (s.dec.core.p.pred.b.toNat + signedField 4 vb.toNat) % 256

/-- DIFF (R191): each channel by a 2-bit field. -/
def Obligations.DiffResult : Prop :=
  ∀ (vr vg vb : BitVec 2) (s : State), s.dec.core.p.Readable s.dec.core.width →
    RunsWhole (.diff vr vg vb) ∧
    ∃ t px, exec (.diff vr vg vb) s = .next t ∧ DecoderStepped s t px 1 s.dec.core.runcnt true ∧
      px.r.toNat = (s.dec.core.p.pred.r.toNat + signedField 2 vr.toNat) % 256 ∧
      px.g.toNat = (s.dec.core.p.pred.g.toNat + signedField 2 vg.toNat) % 256 ∧
      px.b.toNat = (s.dec.core.p.pred.b.toNat + signedField 2 vb.toNat) % 256

/-- LUMA (R193): green by a 6-bit field; red and blue by green's delta plus a 4-bit secondary delta. -/
def Obligations.LumaResult : Prop :=
  ∀ (vg : BitVec 6) (vgr vgb : BitVec 4) (s : State), s.dec.core.p.Readable s.dec.core.width →
    RunsWhole (.luma vg vgr vgb) ∧
    ∃ t px, exec (.luma vg vgr vgb) s = .next t ∧ DecoderStepped s t px 2 s.dec.core.runcnt true ∧
      px.r.toNat =
        (s.dec.core.p.pred.r.toNat + signedField 6 vg.toNat + signedField 4 vgr.toNat) % 256 ∧
      px.g.toNat = (s.dec.core.p.pred.g.toNat + signedField 6 vg.toNat) % 256 ∧
      px.b.toNat =
        (s.dec.core.p.pred.b.toNat + signedField 6 vg.toNat + signedField 4 vgb.toNat) % 256

/-- INDEX (R190): the pixel is the slot's current contents; then slot hash(px), which need not be slot
`i`, takes it. -/
def Obligations.IndexResult : Prop :=
  ∀ (i : BitVec 5) (s : State), s.dec.core.p.Readable s.dec.core.width →
    RunsWhole (.index i) ∧
    ∃ t, exec (.index i) s = .next t ∧
      DecoderStepped s t (s.dec.core.slot i) 1 s.dec.core.runcnt true

/-- RUN (44_decoder.md section 3): RUNCNT takes the field, this position repeats PREV, and the cache is
not written. -/
def Obligations.RunResult : Prop :=
  ∀ (f : BitVec 5) (s : State), f.toNat ≤ 30 → s.dec.core.p.Readable s.dec.core.width →
    RunsWhole (.run f) ∧
    ∃ t, exec (.run f) s = .next t ∧ DecoderStepped s t s.dec.core.prev 1 f false

/-- Steps 7 and 8 of every decoder step (R196, R197): every well-formed opcode completes and moves IPOS by its
length; every one but RUN writes slot hash(px); a run-continuation step does step 8 and no cache write. -/
def Obligations.EveryOpcodeRetires : Prop :=
  (∀ (i : Instr) (s : State), i.wellFormed = true → s.dec.core.p.Readable s.dec.core.width →
    ∃ t px rc, exec i s = .next t ∧
      DecoderStepped s t px (encode i).length rc (decide (i.opcode ≠ .run)) ∧
      (i.opcode ≠ .run → rc = s.dec.core.runcnt)) ∧
  (∀ s : State, 0 < s.dec.core.runcnt.toNat → s.dec.core.p.Readable s.dec.core.width →
    ∃ t rc, decoderStep s = .next t ∧ DecoderStepped s t s.dec.core.prev 0 rc false)

/-- R187: with a run in flight a decoder step reads no byte, does not touch the cache, counts the run
down, and does step 8 with PREV: whatever the stream holds. -/
def Obligations.RunContinuationStep : Prop :=
  ∀ s : State, 0 < s.dec.core.runcnt.toNat → s.dec.core.p.Readable s.dec.core.width →
    ∃ t rc, decoderStep s = .next t ∧ rc.toNat = s.dec.core.runcnt.toNat - 1 ∧
      DecoderStepped s t s.dec.core.prev 0 rc false ∧
      ∀ m, decoderStep { s with dec := { s.dec with stream := m } } =
        .next { t with dec := { t.dec with stream := m } }

/-! ### The step -/

/-- A step of the machine runs the decoded opcode: with nothing asked by the host, the decoder to move
and no run in flight, if the stream at IPOS holds bytes that decode to `i`, the step is `exec i` (the
turn passed to the other agent first, log 7). Whatever the stream holds the step is the decoder's pixel step;
with the encoder to move it is the encoder's; with no agent BUSY nothing happens (log 15); `pass` (log 6) is
the same step with host operations still to come. -/
def Obligations.StepRunsDecoded : Prop :=
  (∀ (s : State) (bytes : List Byte) (i : Instr), s.pending = [] → s.mover = some .decoder →
    s.dec.core.runcnt = 0 → decode bytes = .ok (i, []) →
    s.dec.stream.readBytes s.dec.ipos bytes.length = some bytes →
    step s = exec i (s.passTurn .decoder)) ∧
  (∀ s : State, s.pending = [] → s.mover = some .decoder → step s = decoderStep (s.passTurn .decoder)) ∧
  (∀ s : State, s.pending = [] → s.mover = some .encoder → step s = encoderStep (s.passTurn .encoder)) ∧
  (∀ s : State, s.pending = [] → s.mover = none → step s = .next s) ∧
  (∀ (s t : State) (rest : List HostOp), step { s with pending := [] } = .next t →
    step { s with pending := .pass :: rest } = .next { t with pending := rest })

/-- Which agent moves (log 7, the model's choice): only a BUSY one, and one whenever some agent is. -/
def Obligations.MoverIsBusy : Prop :=
  ∀ s : State,
    (s.mover = some .decoder → s.dec.core.state = .busy) ∧
    (s.mover = some .encoder → s.enc.core.state = .busy) ∧
    (s.mover = none ↔ s.dec.core.state ≠ .busy ∧ s.enc.core.state ≠ .busy)

/-- A decoder step that needs a byte beyond the end of the stream raises StreamUnderrun and is abandoned
whole: only STATE and CAUSE change (60_exceptions.md sections 1 and 2, the spec's decision D11). Of the output
nothing is claimed: "a model must not prove any property of PIXELS after StreamUnderrun" (log 10). The free-value
counter and the turn are the model's own (log 9, log 7). -/
def Obligations.UnderrunAbandonsStep : Prop :=
  ∀ s : State, s.pending = [] → s.mover = some .decoder → s.dec.core.runcnt = 0 →
    (Cells.read s.dec.stream s.dec.ipos = none ∨
      ∃ b0 j, Cells.read s.dec.stream s.dec.ipos = some b0 ∧ j < (classify b0).length ∧
        Cells.read s.dec.stream (s.dec.ipos + j) = none) →
    ∃ output, step s = .next { s with
      turn := .encoder
      dec := { s.dec with
        pixels := output
        core := { s.dec.core with state := .fault, cause := .streamUnderrun,
                                  draw := s.dec.core.draw + 1 } } }

/-- A decoder step depends on the stream only through the bytes of its own opcode: with any other stream
that agrees on those, it does the same (20_memory.md section 9, 44_decoder.md section 4: trailing bytes are never
examined). Of the output after a StreamUnderrun nothing is claimed (60_exceptions.md section 2; log 10). -/
def Obligations.StepReadsOnlyItsOpcode : Prop :=
  ∀ (s t : State) (b0 : Byte) (m : Memory), s.pending = [] → s.mover = some .decoder →
    Cells.read s.dec.stream s.dec.ipos = some b0 →
    (∀ j, j < (classify b0).length →
      Cells.read m (s.dec.ipos + j) = Cells.read s.dec.stream (s.dec.ipos + j)) →
    step s = .next t →
    ∃ output,
      step { s with dec := { s.dec with stream := m } } =
        .next { t with dec := { t.dec with stream := m, pixels := output } } ∧
      (t.dec.core.state ≠ .fault → output = t.dec.pixels)

/-- The cursor never moves backwards (10_state.md section 4): a step without a host operation leaves IPOS, or
moves it past the opcode that stood there. -/
def Obligations.CursorMovesForward : Prop :=
  ∀ s t : State, s.pending = [] → step s = .next t →
    t.dec.ipos = s.dec.ipos ∨
      ∃ b0, Cells.read s.dec.stream s.dec.ipos = some b0 ∧
        t.dec.ipos = s.dec.ipos + (classify b0).length

/-! ### The encoder's pixel step -/

/-- A pixel equal to PREV is counted and nothing is emitted, unless the count reaches 31 or it is the last
pixel of the image (43_encoder.md section 2; the last-pixel flush is the spec's decision D4). -/
def Obligations.EncoderCountsRun : Prop :=
  ∀ (s : State) (px : Pixel), s.enc.pixels.readPixel s.enc.core.n.toNat = some px →
    px = s.enc.core.prev → s.enc.core.p.Readable s.enc.core.width → s.enc.core.runcnt.toNat < 30 →
    s.enc.core.n.toNat + 1 ≠ s.enc.core.width.toNat * s.enc.core.height.toNat →
    ∃ t rc, encoderStep s = .next t ∧ rc.toNat = s.enc.core.runcnt.toNat + 1 ∧
      EncoderStepped s t px [] rc false

/-- A run pixel that makes the count 31, or that is the last pixel, flushes the run in its own step: one
RUN byte, and the count returns to 0 (43_encoder.md section 2, decision D4). -/
def Obligations.EncoderFlushesRun : Prop :=
  ∀ (s : State) (px : Pixel), s.enc.pixels.readPixel s.enc.core.n.toNat = some px →
    px = s.enc.core.prev → s.enc.core.p.Readable s.enc.core.width → s.enc.core.runcnt.toNat ≤ 30 →
    (s.enc.core.runcnt.toNat = 30 ∨
      s.enc.core.n.toNat + 1 = s.enc.core.width.toNat * s.enc.core.height.toNat) →
    ∃ t, encoderStep s = .next t ∧
      EncoderStepped s t px [BitVec.ofNat 8 (0xE0 + s.enc.core.runcnt.toNat)] 0 false

/-- R226: a pixel that differs from PREV and equals its cache slot is emitted as INDEX of that slot, after
the pending RUN if there is one (R225); the cache is not changed. -/
def Obligations.EncoderEmitsIndex : Prop :=
  ∀ (s : State) (px : Pixel), s.enc.pixels.readPixel s.enc.core.n.toNat = some px →
    px ≠ s.enc.core.prev → s.enc.core.slot (hash px) = px → s.enc.core.p.Readable s.enc.core.width →
    ∃ t, encoderStep s = .next t ∧
      EncoderStepped s t px
        (pendingRun s.enc.core.runcnt ++
          [BitVec.ofNat 8 ((px.r.toNat + px.g.toNat + px.b.toNat) % 32)]) 0 false

/-- R229: deltas all in -2..1 give DIFF; then the cache write. -/
def Obligations.EncoderEmitsDiff : Prop :=
  ∀ (s : State) (px : Pixel) (vr vg vb : Byte),
    s.enc.pixels.readPixel s.enc.core.n.toNat = some px → px ≠ s.enc.core.prev →
    s.enc.core.slot (hash px) ≠ px → s.enc.core.p.Readable s.enc.core.width →
    vr = px.r - s.enc.core.p.pred.r → vg = px.g - s.enc.core.p.pred.g → vb = px.b - s.enc.core.p.pred.b →
    inRange 2 vr → inRange 2 vg → inRange 2 vb →
    ∃ t, encoderStep s = .next t ∧
      EncoderStepped s t px
        (pendingRun s.enc.core.runcnt ++
          [BitVec.ofNat 8 (0x40 + 16 * lowBits 2 vr + 4 * lowBits 2 vg + lowBits 2 vb)]) 0 true

/-- R230: deltas that do not fit DIFF, with red and blue in -8..7 and green in -16..15, give DIFF3. -/
def Obligations.EncoderEmitsDiff3 : Prop :=
  ∀ (s : State) (px : Pixel) (vr vg vb : Byte),
    s.enc.pixels.readPixel s.enc.core.n.toNat = some px → px ≠ s.enc.core.prev →
    s.enc.core.slot (hash px) ≠ px → s.enc.core.p.Readable s.enc.core.width →
    vr = px.r - s.enc.core.p.pred.r → vg = px.g - s.enc.core.p.pred.g → vb = px.b - s.enc.core.p.pred.b →
    ¬(inRange 2 vr ∧ inRange 2 vg ∧ inRange 2 vb) →
    inRange 4 vr → inRange 4 vb → inRange 5 vg →
    ∃ t, encoderStep s = .next t ∧
      EncoderStepped s t px
        (pendingRun s.enc.core.runcnt ++
          [BitVec.ofNat 8 (0x20 + lowBits 5 vg), BitVec.ofNat 8 (16 * lowBits 4 vr + lowBits 4 vb)]) 0 true

/-- R231: deltas that fit neither DIFF nor DIFF3, with red and blue within -8..7 of green's and green in
-32..31, give LUMA. -/
def Obligations.EncoderEmitsLuma : Prop :=
  ∀ (s : State) (px : Pixel) (vr vg vb : Byte),
    s.enc.pixels.readPixel s.enc.core.n.toNat = some px → px ≠ s.enc.core.prev →
    s.enc.core.slot (hash px) ≠ px → s.enc.core.p.Readable s.enc.core.width →
    vr = px.r - s.enc.core.p.pred.r → vg = px.g - s.enc.core.p.pred.g → vb = px.b - s.enc.core.p.pred.b →
    ¬(inRange 2 vr ∧ inRange 2 vg ∧ inRange 2 vb) → ¬(inRange 4 vr ∧ inRange 4 vb ∧ inRange 5 vg) →
    inRange 4 (vr - vg) → inRange 4 (vb - vg) → inRange 6 vg →
    ∃ t, encoderStep s = .next t ∧
      EncoderStepped s t px
        (pendingRun s.enc.core.runcnt ++
          [BitVec.ofNat 8 (0x80 + lowBits 6 vg),
           BitVec.ofNat 8 (16 * lowBits 4 (vr - vg) + lowBits 4 (vb - vg))]) 0 true

/-- R232: deltas that fit none of the three before it, all in -64..63, give DIFF2. -/
def Obligations.EncoderEmitsDiff2 : Prop :=
  ∀ (s : State) (px : Pixel) (vr vg vb : Byte),
    s.enc.pixels.readPixel s.enc.core.n.toNat = some px → px ≠ s.enc.core.prev →
    s.enc.core.slot (hash px) ≠ px → s.enc.core.p.Readable s.enc.core.width →
    vr = px.r - s.enc.core.p.pred.r → vg = px.g - s.enc.core.p.pred.g → vb = px.b - s.enc.core.p.pred.b →
    ¬(inRange 2 vr ∧ inRange 2 vg ∧ inRange 2 vb) → ¬(inRange 4 vr ∧ inRange 4 vb ∧ inRange 5 vg) →
    ¬(inRange 4 (vr - vg) ∧ inRange 4 (vb - vg) ∧ inRange 6 vg) →
    inRange 7 vr → inRange 7 vg → inRange 7 vb →
    ∃ t, encoderStep s = .next t ∧
      EncoderStepped s t px
        (pendingRun s.enc.core.runcnt ++
          [BitVec.ofNat 8 (0xC0 + lowBits 5 vr),
           BitVec.ofNat 8 (4 * lowBits 6 vg + lowBits 7 vr / 32),
           BitVec.ofNat 8 (2 * lowBits 7 vb + lowBits 7 vg / 64)]) 0 true

/-- A pixel that is no run pixel, misses its slot and has some delta outside -64..63 is emitted as RGB, the literal
(43_encoder.md section 4). That none of the four forms before it fits exactly when some delta is outside -64..63 is
the spec's own derivation (DIFF, DIFF3 and LUMA each imply DIFF2). -/
def Obligations.EncoderEmitsRgb : Prop :=
  ∀ (s : State) (px : Pixel) (vr vg vb : Byte),
    s.enc.pixels.readPixel s.enc.core.n.toNat = some px → px ≠ s.enc.core.prev →
    s.enc.core.slot (hash px) ≠ px → s.enc.core.p.Readable s.enc.core.width →
    vr = px.r - s.enc.core.p.pred.r → vg = px.g - s.enc.core.p.pred.g → vb = px.b - s.enc.core.p.pred.b →
    ¬(inRange 7 vr ∧ inRange 7 vg ∧ inRange 7 vb) →
    ¬(inRange 2 vr ∧ inRange 2 vg ∧ inRange 2 vb) ∧ ¬(inRange 4 vr ∧ inRange 4 vb ∧ inRange 5 vg) ∧
    ¬(inRange 4 (vr - vg) ∧ inRange 4 (vb - vg) ∧ inRange 6 vg) ∧
    ∃ t, encoderStep s = .next t ∧
      EncoderStepped s t px
        (pendingRun s.enc.core.runcnt ++ [0xFF, px.r, px.g, px.b]) 0 true

/-- The shape of every encoder step (R225, R234, R235): whatever the pixel, step 7 is done with it; a run
pixel writes no cache slot; any other pixel emits the pending RUN first, then the encoding of exactly one opcode,
well formed, no RUN and 1 to 4 bytes long, and writes its cache slot exactly when that slot did not hold it. -/
def Obligations.EncoderStepShape : Prop :=
  ∀ (s : State) (px : Pixel), s.enc.pixels.readPixel s.enc.core.n.toNat = some px →
    s.enc.core.p.Readable s.enc.core.width →
    ∃ t out rc colour, encoderStep s = .next t ∧ EncoderStepped s t px out rc colour ∧
      (px = s.enc.core.prev → colour = false ∧ out.length ≤ 1) ∧
      (px ≠ s.enc.core.prev → rc = 0 ∧
        (colour = true ↔ s.enc.core.slot (hash px) ≠ px) ∧
        ∃ i : Instr, i.wellFormed = true ∧ i.opcode ≠ .run ∧ out = pendingRun s.enc.core.runcnt ++ encode i ∧
          1 ≤ (encode i).length ∧ (encode i).length ≤ 4)

/-- How the conditions of the chain relate (43_encoder.md section 4, the spec's own derivation), over the tests the
encoder makes: DIFF's implies DIFF3's and LUMA's, and each of these implies DIFF2's; DIFF3's and LUMA's do not
imply each other. So what the encoder selects is told by fewer tests than the chain makes: DIFF2 when DIFF3's and
LUMA's fail and DIFF2's holds, RGB exactly when DIFF2's fails. -/
def Obligations.ChainConditionsNest : Prop :=
  (∀ vr vg vb : Byte, fits 2 vr = true → fits 2 vg = true → fits 2 vb = true →
    (fits 4 vr = true ∧ fits 4 vb = true ∧ fits 5 vg = true) ∧
    (fits 4 (vr - vg) = true ∧ fits 4 (vb - vg) = true ∧ fits 6 vg = true)) ∧
  (∀ vr vg vb : Byte, fits 4 vr = true → fits 4 vb = true → fits 5 vg = true →
    fits 7 vr = true ∧ fits 7 vg = true ∧ fits 7 vb = true) ∧
  (∀ vr vg vb : Byte, fits 4 (vr - vg) = true → fits 4 (vb - vg) = true → fits 6 vg = true →
    fits 7 vr = true ∧ fits 7 vg = true ∧ fits 7 vb = true) ∧
  (∃ vr vg vb : Byte, fits 4 vr = true ∧ fits 4 vb = true ∧ fits 5 vg = true ∧ fits 4 (vr - vg) = false) ∧
  (∃ vr vg vb : Byte, fits 4 (vr - vg) = true ∧ fits 4 (vb - vg) = true ∧ fits 6 vg = true ∧
    fits 4 vr = false) ∧
  (∀ v px : Pixel,
    ((selectOpcode v px).opcode = .diff ↔ fits 2 v.r = true ∧ fits 2 v.g = true ∧ fits 2 v.b = true) ∧
    ((selectOpcode v px).opcode = .diff3 ↔
      ¬(fits 2 v.r = true ∧ fits 2 v.g = true ∧ fits 2 v.b = true) ∧
      (fits 4 v.r = true ∧ fits 4 v.b = true ∧ fits 5 v.g = true)) ∧
    ((selectOpcode v px).opcode = .luma ↔
      ¬(fits 4 v.r = true ∧ fits 4 v.b = true ∧ fits 5 v.g = true) ∧
      (fits 4 (v.r - v.g) = true ∧ fits 4 (v.b - v.g) = true ∧ fits 6 v.g = true)) ∧
    ((selectOpcode v px).opcode = .diff2 ↔
      ¬(fits 4 v.r = true ∧ fits 4 v.b = true ∧ fits 5 v.g = true) ∧
      ¬(fits 4 (v.r - v.g) = true ∧ fits 4 (v.b - v.g) = true ∧ fits 6 v.g = true) ∧
      (fits 7 v.r = true ∧ fits 7 v.g = true ∧ fits 7 v.b = true)) ∧
    ((selectOpcode v px).opcode = .rgb ↔ ¬(fits 7 v.r = true ∧ fits 7 v.g = true ∧ fits 7 v.b = true)))

/-- Lock step on one pixel that is no run pixel (70_reset_and_hazards.md section 3): if encoder and decoder hold
the same cache, predictor, previous pixel and index, then executing the opcode the encoder selects makes
the decoder's output that pixel, and they hold the same again. -/
def Obligations.ColourPixelKeepsLockStep : Prop :=
  ∀ (s : State) (px : Pixel) (i : Instr), LockStep s.enc.core s.dec.core →
    s.dec.core.p.Readable s.dec.core.width → px ≠ s.enc.core.prev →
    i = (if s.enc.core.slot (hash px) = px then Instr.index (hash px)
         else selectOpcode (subPixel px s.enc.core.p.pred) px) →
    ∃ e t, (s.enc.opcodes px).core.finish px = .ok e ∧ exec i s = .next t ∧
      i.wellFormed = true ∧ LockStep e t.dec.core ∧
      t.dec.pixels.readPixel s.dec.core.n.toNat = some px

/-! ### Host operations, start and reset -/

/-- An accepted start (60_exceptions.md section 5, the spec's decision D18): STATE = BUSY, every register of
10_state.md section 10 at its reset value (PREV by decision D3, CAUSE as log 4 says), WIDTH, HEIGHT and the
memories untouched, no row entry with a value. -/
def Obligations.StartAccepted : Prop :=
  (∀ (s : State) (rest : List HostOp), s.pending = .start .decoder :: rest → s.dec.core.state ≠ .busy →
    0 < s.dec.core.width.toNat → 0 < s.dec.core.height.toNat →
    s.dec.core.width.toNat ≤ s.cfg.maxWidth.toNat →
    ∃ t, step s = .next t ∧ t.pending = rest ∧ t.enc = s.enc ∧ t.cfg = s.cfg ∧
      t.dec.core.state = .busy ∧ t.dec.core.n = 0 ∧ t.dec.core.prev = Pixel.zero ∧
      t.dec.core.runcnt = 0 ∧ (∀ i, t.dec.core.slot i = Pixel.zero) ∧
      t.dec.core.p.pred = Pixel.zero ∧ t.dec.core.p.a = Pixel.zero ∧ t.dec.core.p.col = 0 ∧
      t.dec.core.p.first = true ∧ (∀ j, Cells.read t.dec.core.p.row j = none) ∧ t.dec.ipos = 0 ∧
      t.dec.core.width = s.dec.core.width ∧ t.dec.core.height = s.dec.core.height ∧
      t.dec.stream = s.dec.stream ∧ t.dec.pixels = s.dec.pixels) ∧
  (∀ (s : State) (rest : List HostOp), s.pending = .start .encoder :: rest → s.enc.core.state ≠ .busy →
    0 < s.enc.core.width.toNat → 0 < s.enc.core.height.toNat →
    s.enc.core.width.toNat ≤ s.cfg.maxWidth.toNat →
    ∃ t, step s = .next t ∧ t.pending = rest ∧ t.dec = s.dec ∧ t.cfg = s.cfg ∧
      t.enc.core.state = .busy ∧ t.enc.core.n = 0 ∧ t.enc.core.prev = Pixel.zero ∧
      t.enc.core.runcnt = 0 ∧ (∀ i, t.enc.core.slot i = Pixel.zero) ∧
      t.enc.core.p.pred = Pixel.zero ∧ t.enc.core.p.a = Pixel.zero ∧ t.enc.core.p.col = 0 ∧
      t.enc.core.p.first = true ∧ (∀ j, Cells.read t.enc.core.p.row j = none) ∧ t.enc.opos = 0 ∧
      t.enc.core.width = s.enc.core.width ∧ t.enc.core.height = s.enc.core.height ∧
      t.enc.stream = s.enc.stream ∧ t.enc.pixels = s.enc.pixels)

/-- A refused start (60_exceptions.md section 1, the spec's decisions D9 and D10): a zero dimension is
BadDimensions, tested first; else a WIDTH beyond MAX_WIDTH is InitFailure. STATE = FAULT and the cause is
set; no input is read and no output written: the encoder's stays, and in the decoder's no address gains or loses a
byte. What its bytes then are is not claimed, since a FAULT leaves the decoder's whole output unspecified to the
host (section 2; log 10), nor what the other registers hold (log 9). -/
def Obligations.StartRefused : Prop :=
  (∀ (s : State) (rest : List HostOp), s.pending = .start .decoder :: rest → s.dec.core.state ≠ .busy →
    (s.dec.core.width = 0 ∨ s.dec.core.height = 0 ∨ s.cfg.maxWidth.toNat < s.dec.core.width.toNat) →
    ∃ t, step s = .next t ∧ t.pending = rest ∧ t.enc = s.enc ∧ t.cfg = s.cfg ∧
      t.dec.core.state = .fault ∧
      t.dec.core.cause =
        (if s.dec.core.width = 0 ∨ s.dec.core.height = 0 then Cause.badDimensions else Cause.initFailure) ∧
      t.dec.core.width = s.dec.core.width ∧ t.dec.core.height = s.dec.core.height ∧
      t.dec.stream = s.dec.stream ∧
      ∀ a, (Cells.read t.dec.pixels a).isSome = (Cells.read s.dec.pixels a).isSome) ∧
  (∀ (s : State) (rest : List HostOp), s.pending = .start .encoder :: rest → s.enc.core.state ≠ .busy →
    (s.enc.core.width = 0 ∨ s.enc.core.height = 0 ∨ s.cfg.maxWidth.toNat < s.enc.core.width.toNat) →
    ∃ t, step s = .next t ∧ t.pending = rest ∧ t.dec = s.dec ∧ t.cfg = s.cfg ∧
      t.enc.core.state = .fault ∧
      t.enc.core.cause =
        (if s.enc.core.width = 0 ∨ s.enc.core.height = 0 then Cause.badDimensions else Cause.initFailure) ∧
      t.enc.core.width = s.enc.core.width ∧ t.enc.core.height = s.enc.core.height ∧
      t.enc.stream = s.enc.stream ∧ t.enc.pixels = s.enc.pixels)

/-- A start while BUSY has no effect at all (60_exceptions.md section 5, the spec's decision D18); writing the
dimensions or the input of a BUSY agent is outside the rules and the model refuses it (log 12, log 13). -/
def Obligations.BusyAgentIsLeftAlone : Prop :=
  ∀ (s : State) (rest : List HostOp) (w h : BitVec 16) (bytes : List Byte),
    (s.dec.core.state = .busy → s.pending = .start .decoder :: rest →
      step s = .next { s with pending := rest }) ∧
    (s.enc.core.state = .busy → s.pending = .start .encoder :: rest →
      step s = .next { s with pending := rest }) ∧
    (s.dec.core.state = .busy → s.pending = .writeDimensions .decoder w h :: rest →
      step s = .refused (.dimensionsWhileBusy .decoder)) ∧
    (s.enc.core.state = .busy → s.pending = .writeDimensions .encoder w h :: rest →
      step s = .refused (.dimensionsWhileBusy .encoder)) ∧
    (s.dec.core.state = .busy → s.pending = .supplyStream bytes :: rest →
      step s = .refused (.inputWhileBusy .decoder)) ∧
    (s.enc.core.state = .busy → s.pending = .supplyPixels bytes :: rest →
      step s = .refused (.inputWhileBusy .encoder))

/-- The host's writes to an agent that is not BUSY (70_reset_and_hazards.md section 2): WIDTH and HEIGHT take the
values and nothing else changes; the supplied bytes become the input, byte 0 first, and it ends where they
end. -/
def Obligations.HostWrites : Prop :=
  ∀ (s : State) (rest : List HostOp) (w h : BitVec 16) (bytes : List Byte),
    (s.dec.core.state ≠ .busy → s.pending = .writeDimensions .decoder w h :: rest →
      step s = .next { s with
        pending := rest, dec := { s.dec with core := { s.dec.core with width := w, height := h } } }) ∧
    (s.enc.core.state ≠ .busy → s.pending = .writeDimensions .encoder w h :: rest →
      step s = .next { s with
        pending := rest, enc := { s.enc with core := { s.enc.core with width := w, height := h } } }) ∧
    (s.dec.core.state ≠ .busy → s.pending = .supplyStream bytes :: rest →
      ∃ m, step s = .next { s with pending := rest, dec := { s.dec with stream := m } } ∧
        m.wf ∧ ∀ k, Cells.read m k = bytes[k]?) ∧
    (s.enc.core.state ≠ .busy → s.pending = .supplyPixels bytes :: rest →
      ∃ m, step s = .next { s with pending := rest, enc := { s.enc with pixels := m } } ∧
        m.wf ∧ ∀ k, Cells.read m k = bytes[k]?)

/-- The registers at power-on and after the hardware reset (10_state.md section 10, 70_reset_and_hazards.md
section 1): cache zero, RUNCNT 0, P.PRED zero, P.COL 0, P.FIRST set, N 0, IPOS and OPOS 0, STATE IDLE; PREV
and P.A zero by the spec's decisions D3 and D8. The hardware reset (decision D18; per agent, log 17) leaves WIDTH
and HEIGHT, the agent's input and output, and everything else of the machine. -/
def Obligations.ResetValues : Prop :=
  (State.reset.enc.core.AtReset ∧ State.reset.dec.core.AtReset ∧ State.reset.enc.opos = 0 ∧
    State.reset.dec.ipos = 0) ∧
  (∀ (s : State) (rest : List HostOp), s.pending = .hardwareReset .decoder :: rest →
    ∃ core, step s = .next { s with pending := rest, dec := { s.dec with core := core, ipos := 0 } } ∧
      core.AtReset ∧ core.width = s.dec.core.width ∧ core.height = s.dec.core.height) ∧
  (∀ (s : State) (rest : List HostOp), s.pending = .hardwareReset .encoder :: rest →
    ∃ core, step s = .next { s with pending := rest, enc := { s.enc with core := core, opos := 0 } } ∧
      core.AtReset ∧ core.width = s.enc.core.width ∧ core.height = s.enc.core.height)

/-- What the host reads (60_exceptions.md section 1, 10_state.md section 4): the CAUSE code in FAULT; at DONE the
first OPOS bytes of the encoder's stream, and on the 32-bit port their number when it is below 2^32. -/
def Obligations.HostReads : Prop :=
  (∀ (who : AgentId) (c : Agent), c.state = .fault →
    (c.cause = .badDimensions → c.causeCode who = 1) ∧ (c.cause = .initFailure → c.causeCode who = 2) ∧
      (c.cause = .streamUnderrun → c.causeCode who = 3)) ∧
  (∀ (e : Encoder) (bs : List Byte), e.core.state = .done →
    (e.result = some bs ↔ bs.length = e.opos ∧ ∀ k (h : k < bs.length), Cells.read e.stream k = some bs[k])) ∧
  (∀ e : Encoder, e.opos < 2 ^ 32 → e.lengthPort.toNat = e.opos)

/-! ### Whole-machine rules -/

/-- The state after power-on meets every invariant. -/
def Obligations.ResetIsSound : Prop := State.reset.Sound

/-- Every step keeps every memory and row buffer in canonical form. -/
def Obligations.StepKeepsCanonical : Prop :=
  ∀ s t : State, s.Canonical → step s = .next t → t.Canonical

/-- Every step keeps the counters of 10_state.md section 11 (a), (b), (f), (g) and the byte bounds of 43_encoder.md
section 5 and 10_state.md section 4: from any state that meets them, not only from reset. -/
def Obligations.StepKeepsCounting : Prop :=
  ∀ s t : State, s.Counting → step s = .next t → t.Counting

/-- Every step keeps R156 for BUSY agents: a slot holds the zero pixel or a pixel that hashes to it. -/
def Obligations.StepKeepsCacheHashed : Prop :=
  ∀ s t : State, s.CacheHashed → step s = .next t → t.CacheHashed

/-- Every step keeps the history of 10_state.md section 11 (c), (d), (f) and 40_predictor.md section 2: PREV and P.A
are the pixel before, P.PRED is the four-case prediction over the image itself, and one row of history
stands in the row buffer, for encoder and decoder. -/
def Obligations.StepKeepsHistory : Prop :=
  ∀ s t : State, s.Counting → s.History → step s = .next t → t.History

/-- No entry of the row buffer is read before it is written (40_predictor.md section 3): in a state that meets
the counting and history invariants a BUSY agent's predictor can advance, so every opcode completes there. -/
def Obligations.BusyAgentCanAdvance : Prop :=
  ∀ s : State, s.Counting → s.History →
    (s.dec.core.state = .busy → s.dec.core.p.Readable s.dec.core.width) ∧
    (s.enc.core.state = .busy → s.enc.core.p.Readable s.enc.core.width)

/-- In a state that meets the invariants, and whose BUSY encoder has its whole input, no step stops in one
of the model's faults (R35: "a fault that no run reaches"; 43_encoder.md section 5: once started the encoder cannot
fault). -/
def Obligations.SoundStateNeverFaults : Prop :=
  ∀ (s : State) (f : Fault), s.Sound → s.enc.InputReady → step s ≠ .fault f

/-- FAULT is left only by the host (10_state.md section 3, 60_exceptions.md section 2): by a start, or by the hardware
reset (decision D18; log 17). -/
def Obligations.FaultLeftOnlyByHost : Prop :=
  ∀ s t : State, step s = .next t →
    (s.dec.core.state = .fault → t.dec.core.state ≠ .fault →
      ∃ rest, s.pending = .start .decoder :: rest ∨ s.pending = .hardwareReset .decoder :: rest) ∧
    (s.enc.core.state = .fault → t.enc.core.state ≠ .fault →
      ∃ rest, s.pending = .start .encoder :: rest ∨ s.pending = .hardwareReset .encoder :: rest)

/-- The agents share nothing (00_scope.md section 5, 20_memory.md section 6): a step changes at most one of them;
a pixel step changes only the mover. And MAX_WIDTH never changes: it is a parameter of the implementation, the depth
of the physical line buffer (00_scope.md section 4, R9), and configuration fixed for a run (10_state.md section 9,
R38); that no step changes it between runs either is the model's choice (log 5). -/
def Obligations.AgentsShareNothing : Prop :=
  ∀ s t : State, step s = .next t →
    (t.enc = s.enc ∨ t.dec = s.dec) ∧ t.cfg = s.cfg ∧
    (s.pending = [] → s.mover = some .decoder → t.enc = s.enc) ∧
    (s.pending = [] → s.mover = some .encoder → t.dec = s.dec)

/-- Neither agent's step depends on the other (00_scope.md section 5, 20_memory.md section 6: "Two agents running at
once on different images do not interact"): with any other encoder in its place, BUSY or not, a decoder whose turn
it is ends the same, and the encoder that stands there is left alone; and the other way round. A BUSY other agent
may take its step first when the turn is its own (log 7), so the turn or its not being BUSY is a premise. Of the
output after a StreamUnderrun nothing is claimed (60_exceptions.md section 2; log 10). -/
def Obligations.AgentsIgnoreEachOther : Prop :=
  (∀ (s t : State) (e : Encoder), s.pending = [] → s.mover = some .decoder →
    (s.turn = .decoder ∨ e.core.state ≠ .busy) → step s = .next t →
    ∃ output, step { s with enc := e } = .next { t with enc := e, dec := { t.dec with pixels := output } } ∧
      (t.dec.core.state ≠ .fault → output = t.dec.pixels)) ∧
  (∀ (s t : State) (d : Decoder), s.pending = [] → s.mover = some .encoder →
    (s.turn = .encoder ∨ d.core.state ≠ .busy) → step s = .next t →
    step { s with dec := d } = .next { t with dec := d })

/-- A run of the decoder ends (60_exceptions.md section 5, 70_reset_and_hazards.md section 4): from a sound state with
only the decoder BUSY, within the pixel steps that are left it is DONE, or in FAULT with StreamUnderrun; and
DONE after exactly those steps if the stream has 4 bytes for every pixel. -/
def Obligations.DecoderRunEnds : Prop :=
  ∀ (s : State) (left : Nat), s.Sound → s.pending = [] → s.dec.core.state = .busy →
    s.enc.core.state ≠ .busy →
    s.dec.core.n.toNat + left = s.dec.core.width.toNat * s.dec.core.height.toNat →
    (∃ k t, k ≤ left ∧ Host.Core.run Sys2Proof.core k s = (.next t : Host.Outcome State Fault Refusal) ∧
      (t.dec.core.state = .done ∨ (t.dec.core.state = .fault ∧ t.dec.core.cause = .streamUnderrun))) ∧
    ((∀ a, a < 4 * (s.dec.core.width.toNat * s.dec.core.height.toNat) → (Cells.read s.dec.stream a).isSome) →
      ∃ t, Host.Core.run Sys2Proof.core left s = (.next t : Host.Outcome State Fault Refusal) ∧
        t.dec.core.state = .done)

/-- A run of the encoder ends (43_encoder.md section 5): from a sound state with only the encoder BUSY and its
input supplied, after exactly the pixel steps that are left it is DONE, no run is in flight, and it has
emitted at least 1 and at most 4 x WIDTH x HEIGHT bytes. -/
def Obligations.EncoderRunEnds : Prop :=
  ∀ (s : State) (left : Nat), s.Sound → s.enc.InputReady → s.pending = [] → s.enc.core.state = .busy →
    s.dec.core.state ≠ .busy →
    s.enc.core.n.toNat + left = s.enc.core.width.toNat * s.enc.core.height.toNat →
    ∃ t, Host.Core.run Sys2Proof.core left s = (.next t : Host.Outcome State Fault Refusal) ∧
      t.enc.core.state = .done ∧ t.enc.core.runcnt = 0 ∧ 1 ≤ t.enc.opos ∧
      t.enc.opos ≤ 4 * (s.enc.core.width.toNat * s.enc.core.height.toNat)

/-- The codec is lossless (44_decoder.md section 5): for every raw image of accepted dimensions, from any state in
which no agent is BUSY, a run of the encoder is DONE after WIDTH x HEIGHT pixel steps with some bytes, and a
run of the decoder on those bytes with the same dimensions is DONE after as many with the same raw image,
byte for byte. -/
def Obligations.RoundTrip : Prop :=
  ∀ (s : State) (w h : BitVec 16) (raw : List Byte), s.pending = [] →
    s.enc.core.state ≠ .busy → s.dec.core.state ≠ .busy →
    0 < w.toNat → 0 < h.toNat → w.toNat ≤ s.cfg.maxWidth.toNat → raw.length = 3 * (w.toNat * h.toNat) →
    ∃ s1 bs s2,
      Host.Core.run Sys2Proof.core (3 + w.toNat * h.toNat)
        { s with pending := [.writeDimensions .encoder w h, .supplyPixels raw, .start .encoder] } =
          (.next s1 : Host.Outcome State Fault Refusal) ∧
      s1.enc.result = some bs ∧
      Host.Core.run Sys2Proof.core (3 + w.toNat * h.toNat)
        { s1 with pending := [.writeDimensions .decoder w h, .supplyStream bs, .start .decoder] } =
          (.next s2 : Host.Outcome State Fault Refusal) ∧
      s2.dec.result = some raw
end

