-- ==== Sys2Proof/Laws/Memory.lean ====
section
/-! SUPPORT. Laws of the sparse memories: read after write, and that every operation keeps the canonical form. -/

namespace Sys2Proof.Machine

open Sys2Proof

variable {α : Type}

@[simp] theorem Cells.read_nil (k : Nat) : Cells.read ([] : List (Nat × α)) k = none := rfl

theorem Cells.read_write_same (m : List (Nat × α)) (k : Nat) (v : α) :
    Cells.read (Cells.write m k v) k = some v := by
  induction m with
  | nil => simp [Cells.write, Cells.read]
  | cons e m ih =>
    obtain ⟨j, w⟩ := e
    simp only [Cells.write]
    split
    · simp [Cells.read]
    · split <;> simp_all [Cells.read]

theorem Cells.read_write_ne (m : List (Nat × α)) {k j : Nat} (v : α) (h : j ≠ k) :
    Cells.read (Cells.write m k v) j = Cells.read m j := by
  induction m with
  | nil => simp [Cells.write, Cells.read, h]
  | cons e m ih =>
    obtain ⟨i, w⟩ := e
    simp only [Cells.write]
    split
    · simp [Cells.read, h]
    · split
      · subst_vars; simp [Cells.read, h]
      · simp [Cells.read, ih]

/-- Reading after a write, both cases at once. -/
theorem Cells.read_write (m : List (Nat × α)) (k j : Nat) (v : α) :
    Cells.read (Cells.write m k v) j = if j = k then some v else Cells.read m j := by
  split
  · subst_vars; exact Cells.read_write_same m _ v
  · exact Cells.read_write_ne m v ‹_›

theorem Cells.mem_write {m : List (Nat × α)} {k : Nat} {v : α} {e : Nat × α}
    (h : e ∈ Cells.write m k v) : e = (k, v) ∨ e ∈ m := by
  induction m with
  | nil => simpa [Cells.write] using h
  | cons d m ih =>
    obtain ⟨j, w⟩ := d
    simp only [Cells.write] at h
    split at h
    · simpa using h
    · split at h
      · rcases List.mem_cons.mp h with h | h
        · exact .inl h
        · exact .inr (List.mem_cons_of_mem _ h)
      · rcases List.mem_cons.mp h with h | h
        · exact .inr (by simp [h])
        · exact (ih h).imp id (List.mem_cons_of_mem _)

/-- A write keeps the canonical form. -/
theorem Cells.wf_write {m : List (Nat × α)} (k : Nat) (v : α) (h : Cells.wf m) :
    Cells.wf (Cells.write m k v) := by
  induction m with
  | nil => simp [Cells.write, Cells.wf]
  | cons d m ih =>
    obtain ⟨j, w⟩ := d
    obtain ⟨hj, hm⟩ := List.pairwise_cons.mp h
    simp only [Cells.write]
    split
    · rename_i hk
      refine List.pairwise_cons.mpr ⟨fun e he => ?_, h⟩
      rcases List.mem_cons.mp he with rfl | he
      · exact hk
      · exact Nat.lt_trans hk (hj e he)
    · split
      · rename_i hk
        exact List.pairwise_cons.mpr ⟨fun e he => hk ▸ hj e he, hm⟩
      · refine List.pairwise_cons.mpr ⟨fun e he => ?_, ih hm⟩
        rcases Cells.mem_write he with rfl | he
        · show j < k; omega
        · exact hj e he

theorem Memory.wf_writeBytes (bs : List Byte) (m : Memory) (k : Nat) (h : m.wf) :
    (m.writeBytes k bs).wf := by
  induction bs generalizing m k with
  | nil => exact h
  | cons b bs ih => exact ih _ _ (Cells.wf_write k b h)

theorem Memory.wf_writePixel (m : Memory) (n : Nat) (p : Pixel) (h : m.wf) : (m.writePixel n p).wf :=
  Memory.wf_writeBytes _ m _ h

theorem Memory.mem_ofBytes {bs : List Byte} {base : Nat} {e : Host.Cell}
    (h : e ∈ Memory.ofBytes base bs) : base ≤ e.1 := by
  induction bs generalizing base with
  | nil => simp [Memory.ofBytes] at h
  | cons b bs ih =>
    rcases List.mem_cons.mp h with rfl | h
    · exact Nat.le_refl _
    · exact Nat.le_of_succ_le (ih h)

theorem Memory.wf_ofBytes (bs : List Byte) (base : Nat) : (Memory.ofBytes base bs).wf := by
  induction bs generalizing base with
  | nil => exact List.Pairwise.nil
  | cons b bs ih => exact List.pairwise_cons.mpr ⟨fun e he => Memory.mem_ofBytes he, ih _⟩

/-- A byte sequence laid out in memory: offset `k` holds its `k`th byte and nothing lies outside it. -/
theorem Memory.read_ofBytes (bs : List Byte) (base k : Nat) :
    Cells.read (Memory.ofBytes base bs) k = if k < base then none else bs[k - base]? := by
  induction bs generalizing base with
  | nil => simp [Memory.ofBytes]
  | cons b bs ih =>
    simp only [Memory.ofBytes, Cells.read, ih]
    split
    · subst_vars; simp
    · split
      · rw [if_pos (by omega)]
      · rw [if_neg (by omega), show k - base = (k - (base + 1)) + 1 by omega]; simp

theorem Memory.read_writeBytes_outside (bs : List Byte) (m : Memory) {k a : Nat}
    (h : a < k ∨ k + bs.length ≤ a) : Cells.read (m.writeBytes k bs) a = Cells.read m a := by
  induction bs generalizing m k with
  | nil => rfl
  | cons b bs ih =>
    simp only [List.length_cons] at h
    simp only [Memory.writeBytes]
    rw [ih _ (by omega), Cells.read_write_ne _ _ (by omega)]

theorem Memory.read_writeBytes_inside (bs : List Byte) (m : Memory) (k i : Nat) (h : i < bs.length) :
    Cells.read (m.writeBytes k bs) (k + i) = some bs[i] := by
  induction bs generalizing m k i with
  | nil => simp at h
  | cons b bs ih =>
    simp only [Memory.writeBytes]
    cases i with
    | zero =>
      rw [Memory.read_writeBytes_outside _ _ (by omega)]
      simpa using Cells.read_write_same m k b
    | succ i =>
      have := ih (Cells.write m k b) (k + 1) i (by simpa using h)
      rw [show k + (i + 1) = k + 1 + i by omega, this]; simp

theorem Memory.writeBytes_append (bs cs : List Byte) (m : Memory) (k : Nat) :
    m.writeBytes k (bs ++ cs) = (m.writeBytes k bs).writeBytes (k + bs.length) cs := by
  induction bs generalizing m k with
  | nil => rfl
  | cons b bs ih =>
    simp only [List.cons_append, Memory.writeBytes, ih, List.length_cons]
    rw [show k + 1 + bs.length = k + (bs.length + 1) by omega]

/-- Reading a run of bytes succeeds exactly when each of them is there. -/
theorem Memory.readBytes_eq_some_iff (m : Memory) (k n : Nat) (bs : List Byte) :
    m.readBytes k n = some bs ↔ bs.length = n ∧ ∀ i (h : i < bs.length), Cells.read m (k + i) = some bs[i] := by
  induction n generalizing k bs with
  | zero =>
    simp only [Memory.readBytes, Option.some.injEq]
    constructor
    · rintro rfl; simp
    · rintro ⟨h, -⟩; exact (List.length_eq_zero_iff.mp h).symm
  | succ n ih =>
    simp only [Memory.readBytes]
    constructor
    · intro h
      split at h
      · cases h
      · rename_i b hb
        split at h
        · cases h
        · rename_i cs hcs
          cases h
          obtain ⟨hl, hr⟩ := (ih (k + 1) cs).mp hcs
          refine ⟨by simp [hl], fun i hi => ?_⟩
          cases i with
          | zero => simpa using hb
          | succ i =>
            have := hr i (by simpa using hi)
            rw [show k + (i + 1) = k + 1 + i by omega, this]; simp
    · rintro ⟨hl, hr⟩
      cases bs with
      | nil => simp at hl
      | cons b bs =>
        have hb : Cells.read m k = some b := hr 0 (Nat.succ_pos _)
        have hbs : m.readBytes (k + 1) n = some bs :=
          (ih (k + 1) bs).mpr ⟨by simpa using hl, fun i hi => by
            have := hr (i + 1) (by simpa using hi)
            rw [show k + 1 + i = k + (i + 1) by omega, this]; simp⟩
        simp [hb, hbs]

/-- A memory that has become unspecified lists the same addresses. -/
theorem Memory.read_unspecified (draw : Nat) (m : Memory) (k : Nat) :
    Cells.read (m.unspecified draw) k = (Cells.read m k).map fun _ => Config.freeOutputByte draw k := by
  induction m with
  | nil => rfl
  | cons e m ih =>
    obtain ⟨j, v⟩ := e
    simp only [Memory.unspecified, List.map_cons, Cells.read] at ih ⊢
    split
    · subst_vars; rfl
    · exact ih

theorem Memory.wf_unspecified (draw : Nat) (m : Memory) (h : m.wf) : (m.unspecified draw).wf :=
  List.pairwise_map.mpr h

/-- What a pixel write leaves of the raw buffer: the pixel's three bytes, and every other byte. -/
theorem Memory.read_writePixel (m : Memory) (n a : Nat) (p : Pixel) :
    Cells.read (m.writePixel n p) a =
      if a = 3 * n then some p.b else if a = 3 * n + 1 then some p.g
      else if a = 3 * n + 2 then some p.r else Cells.read m a := by
  simp only [Memory.writePixel, Memory.writeBytes, Cells.read_write]
  split_ifs <;> first | rfl | omega

theorem Memory.readPixel_writePixel_same (m : Memory) (n : Nat) (p : Pixel) :
    (m.writePixel n p).readPixel n = some p := by
  simp [Memory.readPixel, Memory.read_writePixel]

theorem Memory.readPixel_writePixel_ne (m : Memory) {n k : Nat} (p : Pixel) (h : k ≠ n) :
    (m.writePixel n p).readPixel k = m.readPixel k := by
  have e0 : Cells.read (m.writePixel n p) (3 * k) = Cells.read m (3 * k) := by
    rw [Memory.read_writePixel]; split_ifs <;> first | rfl | omega
  have e1 : Cells.read (m.writePixel n p) (3 * k + 1) = Cells.read m (3 * k + 1) := by
    rw [Memory.read_writePixel]; split_ifs <;> first | rfl | omega
  have e2 : Cells.read (m.writePixel n p) (3 * k + 2) = Cells.read m (3 * k + 2) := by
    rw [Memory.read_writePixel]; split_ifs <;> first | rfl | omega
  simp only [Memory.readPixel, e0, e1, e2]

end Sys2Proof.Machine
end

