-- ==== Sys2Proof/Laws/Codec.lean ====
section
/-! SUPPORT. Laws of the encoding: lengths, leading bytes, field extraction, and what a fetch gives. -/

namespace Sys2Proof

theorem encode_length (i : Instr) : (encode i).length = i.opcode.length := by
  cases i <;> rfl

theorem opcode_length_pos (op : Opcode) : 0 < op.length := by cases op <;> decide

theorem encode_length_pos (i : Instr) : 0 < (encode i).length := by
  rw [encode_length]; exact opcode_length_pos _

theorem encode_length_le (i : Instr) : (encode i).length ≤ 4 := by
  cases i <;> simp [encode]

/-! ### Leading bytes -/

theorem classify_tag_diff2 : ∀ x : BitVec 5, classify (0b110#3 ++ x) = .diff2 := by decide
theorem classify_tag_run : ∀ x : BitVec 5, x ≠ 31 → classify (0b111#3 ++ x) = .run := by decide
theorem classify_tag_index : ∀ x : BitVec 5, classify (0b000#3 ++ x) = .index := by decide
theorem classify_tag_diff3 : ∀ x : BitVec 5, classify (0b001#3 ++ x) = .diff3 := by decide
theorem classify_tag_luma : ∀ x : BitVec 6, classify (0b10#2 ++ x) = .luma := by decide
theorem classify_tag_diff : ∀ x y z : BitVec 2, classify (0b01#2 ++ x ++ y ++ z) = .diff := by decide

/-- The leading byte of a well-formed opcode is of its class. -/
theorem classify_leading {i : Instr} (hi : i.wellFormed = true) {b0 : Byte}
    (h : (encode i).head? = some b0) : classify b0 = i.opcode := by
  cases i <;> simp only [encode, List.head?_cons, Option.some.injEq] at h <;> subst h
  case rgb => exact (by decide : classify 0xFF = .rgb)
  case diff2 => exact classify_tag_diff2 _
  case run f => exact classify_tag_run f (by simpa [Instr.wellFormed, runFieldOk] using hi)
  case index => exact classify_tag_index _
  case diff3 => exact classify_tag_diff3 _
  case diff => exact classify_tag_diff _ _ _
  case luma => exact classify_tag_luma _

/-! ### Fields put together and taken apart -/

theorem low5_tag110 : ∀ x : BitVec 5, (0b110#3 ++ x : Byte).extractLsb' 0 5 = x := by decide
theorem low5_tag111 : ∀ x : BitVec 5, (0b111#3 ++ x : Byte).extractLsb' 0 5 = x := by decide
theorem low5_tag000 : ∀ x : BitVec 5, (0b000#3 ++ x : Byte).extractLsb' 0 5 = x := by decide
theorem low5_tag001 : ∀ x : BitVec 5, (0b001#3 ++ x : Byte).extractLsb' 0 5 = x := by decide
theorem low6_tag10 : ∀ x : BitVec 6, (0b10#2 ++ x : Byte).extractLsb' 0 6 = x := by decide
theorem fields_diff : ∀ x y z : BitVec 2,
    (0b01#2 ++ x ++ y ++ z : Byte).extractLsb' 4 2 = x ∧
    (0b01#2 ++ x ++ y ++ z : Byte).extractLsb' 2 2 = y ∧
    (0b01#2 ++ x ++ y ++ z : Byte).extractLsb' 0 2 = z := by decide
theorem nibbles : ∀ x y : BitVec 4,
    (x ++ y : Byte).extractLsb' 4 4 = x ∧ (x ++ y : Byte).extractLsb' 0 4 = y := by decide
theorem fields_diff2_byte1 : ∀ (x : BitVec 6) (y : BitVec 2),
    (x ++ y : Byte).extractLsb' 0 2 = y ∧ (x ++ y : Byte).extractLsb' 2 6 = x := by decide
theorem fields_diff2_byte2 : ∀ (x : BitVec 7) (y : BitVec 1),
    (x ++ y : Byte).extractLsb' 1 7 = x ∧ (x ++ y : Byte).extractLsb' 0 1 = y := by decide
theorem join_vr : ∀ x : BitVec 7, (x.extractLsb' 5 2 ++ x.extractLsb' 0 5 : BitVec 7) = x := by decide
theorem join_vg : ∀ x : BitVec 7, (x.extractLsb' 6 1 ++ x.extractLsb' 0 6 : BitVec 7) = x := by decide

namespace Machine

/-- What a fetch gives, when the stream has the leading byte. -/
theorem fetch_of_leading {m : Memory} {k : Nat} {b0 : Byte} (h : Cells.read m k = some b0) :
    fetch m k =
      match m.readBytes k (classify b0).length with
      | none => none
      | some bytes =>
        match decode bytes with
        | .ok (i, _) => some i
        | .error _ => none := by
  have hb : fetchBytes m k = m.readBytes k (classify b0).length := by simp only [fetchBytes, h]
  unfold fetch
  cases hr : m.readBytes k (classify b0).length with
  | none => simp only [hb, hr]
  | some bytes => cases hd : decode bytes <;> simp only [hb, hr, hd]

/-- A run of bytes is unreadable exactly when one of them is missing. -/
theorem Memory.readBytes_eq_none_iff (m : Memory) (k n : Nat) :
    m.readBytes k n = none ↔ ∃ j, j < n ∧ Cells.read m (k + j) = none := by
  induction n generalizing k with
  | zero => simp [Memory.readBytes]
  | succ n ih =>
    have step : (∃ j, j < n + 1 ∧ Cells.read m (k + j) = none) ↔
        Cells.read m k = none ∨ ∃ j, j < n ∧ Cells.read m (k + 1 + j) = none := by
      constructor
      · rintro ⟨j, hj, h⟩
        cases j with
        | zero => exact .inl h
        | succ j => exact .inr ⟨j, by omega, by rw [show k + 1 + j = k + (j + 1) by omega]; exact h⟩
      · rintro (h | ⟨j, hj, h⟩)
        · exact ⟨0, by omega, h⟩
        · exact ⟨j + 1, by omega, by rw [show k + (j + 1) = k + 1 + j by omega]; exact h⟩
    rw [step, ← ih]
    simp only [Memory.readBytes]
    cases h0 : Cells.read m k with
    | none => simp
    | some b => cases h1 : m.readBytes (k + 1) n <;> simp

end Machine

end Sys2Proof
end

