-- ==== Sys2Proof/Laws/Predictor.lean ====
section
/-! SUPPORT. Laws of the Predictor Iterator: everything an `advance` that completes did, and when one completes. -/

namespace Sys2Proof.Machine

open Sys2Proof

variable {w : BitVec 16} {cur : Pixel} {p p' : Predictor}

theorem Predictor.lastColumn_iff : p.lastColumn w = true ↔ p.col.toNat + 1 = w.toNat := by
  simp [Predictor.lastColumn]

/-- Everything a completed `advance` did. -/
theorem advance_ok_iff :
    advance w cur p = .ok p' ↔
      predictNext cur (p.colAfter w) (p.firstAfter w) (p.rowAfter w cur) = .ok p'.pred ∧ p'.a = cur ∧
        p'.col = p.colAfter w ∧ p'.first = p.firstAfter w ∧ p'.row = p.rowAfter w cur := by
  obtain ⟨pred, a, col, first, row⟩ := p'
  unfold advance
  split
  · rename_i q hq
    simp only [Except.ok.injEq, Predictor.mk.injEq, hq]
    constructor
    · rintro ⟨rfl, rfl, rfl, rfl, rfl⟩; exact ⟨rfl, rfl, rfl, rfl, rfl⟩
    · rintro ⟨rfl, rfl, rfl, rfl, rfl⟩; exact ⟨rfl, rfl, rfl, rfl, rfl⟩
  · rename_i f hf
    simp [hf]

theorem readRow_ok_iff {row : List (Nat × Pixel)} {j : Nat} {q : Pixel} :
    readRow row j = .ok q ↔ Cells.read row j = some q := by
  unfold readRow
  split <;> simp_all

/-- The row buffer after steps 1 and 2, entry by entry. -/
theorem read_rowAfter (j : Nat) :
    Cells.read (p.rowAfter w cur) j =
      if j = p.col.toNat ∧ p.col.toNat + 1 = w.toNat then some cur
      else if j + 1 = p.col.toNat then some p.a
      else Cells.read p.row j := by
  simp only [Predictor.rowAfter, Predictor.rowDelayed, Predictor.lastColumn_iff]
  split_ifs <;> (try simp only [Cells.read_write]) <;> (try split_ifs) <;> first | rfl | omega

theorem colAfter_last (h : p.col.toNat + 1 = w.toNat) : p.colAfter w = 0 := by
  simp [Predictor.colAfter, Predictor.lastColumn_iff.mpr h]

theorem colAfter_inside (h : p.col.toNat + 1 < w.toNat) :
    (p.colAfter w).toNat = p.col.toNat + 1 := by
  have hw := w.isLt
  have : p.lastColumn w = false := by
    simp [Predictor.lastColumn]; omega
  simp only [Predictor.colAfter, this, Bool.false_eq_true, if_false, BitVec.toNat_add]
  simp; omega

theorem firstAfter_last (h : p.col.toNat + 1 = w.toNat) : p.firstAfter w = false := by
  simp [Predictor.firstAfter, Predictor.lastColumn_iff.mpr h]

theorem firstAfter_inside (h : p.col.toNat + 1 < w.toNat) : p.firstAfter w = p.first := by
  have : p.lastColumn w = false := by
    simp [Predictor.lastColumn]; omega
  simp [Predictor.firstAfter, this]

/-- The prediction formed at a wrap is the row buffer's entry 0 as the step leaves it (case 3). -/
theorem predictNext_last (h : p.col.toNat + 1 = w.toNat) :
    predictNext cur (p.colAfter w) (p.firstAfter w) (p.rowAfter w cur) =
      readRow (p.rowAfter w cur) 0 := by
  simp [predictNext, colAfter_last h]

theorem colAfter_ne_zero (h : p.col.toNat + 1 < w.toNat) : p.colAfter w ≠ 0 := by
  intro e
  have := colAfter_inside h
  rw [e] at this
  simp at this

/-- In the first row the next prediction is the left neighbour (case 2). -/
theorem predictNext_first (h : p.col.toNat + 1 < w.toNat) (hf : p.first = true) :
    predictNext cur (p.colAfter w) (p.firstAfter w) (p.rowAfter w cur) = .ok cur := by
  rw [predictNext, if_neg (colAfter_ne_zero h), firstAfter_inside h, hf]; rfl

/-- From row 1 on the next prediction is MED of left, above and above-left (case 4). -/
theorem predictNext_med (h : p.col.toNat + 1 < w.toNat) (hf : p.first = false) {b c : Pixel}
    (hb : Cells.read p.row (p.col.toNat + 1) = some b) (hc : Cells.read p.row p.col.toNat = some c) :
    predictNext cur (p.colAfter w) (p.firstAfter w) (p.rowAfter w cur) = .ok (medPixel cur b c) := by
  have hb' : readRow (p.rowAfter w cur) (p.col.toNat + 1) = .ok b :=
    readRow_ok_iff.mpr (by
      rw [read_rowAfter, if_neg (by omega), if_neg (by omega)]; exact hb)
  have hc' : readRow (p.rowAfter w cur) p.col.toNat = .ok c :=
    readRow_ok_iff.mpr (by
      rw [read_rowAfter, if_neg (by omega), if_neg (by omega)]; exact hc)
  simp only [predictNext, colAfter_ne_zero h, firstAfter_inside h, hf, if_false, Bool.false_eq_true,
    colAfter_inside h, Nat.add_sub_cancel, hb', hc']

/-- With the entries it reads present, `advance` completes. -/
theorem advance_completes (h : p.Readable w) (cur : Pixel) : ∃ p', advance w cur p = .ok p' := by
  have key : ∃ q, predictNext cur (p.colAfter w) (p.firstAfter w) (p.rowAfter w cur) = .ok q := by
    rcases Nat.lt_or_ge (p.col.toNat + 1) w.toNat with hl | hl
    · cases hf : p.first with
      | true => exact ⟨_, predictNext_first hl hf⟩
      | false =>
        obtain ⟨hb, hc⟩ := h.above hl hf
        obtain ⟨b, hb⟩ := Option.isSome_iff_exists.mp hb
        obtain ⟨c, hc⟩ := Option.isSome_iff_exists.mp hc
        exact ⟨_, predictNext_med hl hf hb hc⟩
    · have hl' : p.col.toNat + 1 = w.toNat := by have := h.inRow; omega
      have hr := read_rowAfter (w := w) (cur := cur) (p := p) 0
      rcases Nat.lt_or_ge p.col.toNat 2 with hx | hx
      · refine ⟨if p.col.toNat = 0 then cur else p.a, ?_⟩
        rw [predictNext_last hl', readRow_ok_iff, hr]
        split_ifs <;> first | rfl | omega
      · obtain ⟨q, hq⟩ := Option.isSome_iff_exists.mp (h.wrap hl' hx)
        refine ⟨q, ?_⟩
        rw [predictNext_last hl', readRow_ok_iff, hr, if_neg (by omega), if_neg (by omega), hq]
  obtain ⟨q, hq⟩ := key
  exact ⟨⟨q, cur, p.colAfter w, p.firstAfter w, p.rowAfter w cur⟩,
    advance_ok_iff.mpr ⟨hq, rfl, rfl, rfl, rfl⟩⟩

/-- Everything the end of a pixel step did, when it completed. -/
theorem finish_ok_iff {c c' : Agent} {px : Pixel} :
    c.finish px = .ok c' ↔
      ∃ p, advance c.width px c.p = .ok p ∧
        c' = { c with prev := px, p := p, n := c.n + 1, state := stateAfter c } := by
  have hs : (if c.lastPixel = true then RunState.done else c.state) = stateAfter c := by
    simp [stateAfter, Agent.lastPixel]
  unfold Agent.finish
  cases advance c.width px c.p with
  | ok p =>
    simp only [hs, Except.ok.injEq]
    exact ⟨fun h => ⟨p, rfl, h.symm⟩, fun ⟨q, hq, h⟩ => by rw [h, hq]⟩
  | error f => exact ⟨fun h => (by cases h), fun ⟨q, hq, _⟩ => (by cases hq)⟩

/-- The end of a pixel step fails only where `advance` does. -/
theorem finish_error_iff {c : Agent} {px : Pixel} {f : Fault} :
    c.finish px = .error f ↔ advance c.width px c.p = .error f := by
  unfold Agent.finish
  cases advance c.width px c.p <;> simp

/-- A row buffer in canonical form stays so. -/
theorem wf_rowAfter (w : BitVec 16) (cur : Pixel) (p : Predictor) (h : Cells.wf p.row) :
    Cells.wf (p.rowAfter w cur) := by
  have h1 : Cells.wf p.rowDelayed := by
    unfold Predictor.rowDelayed
    split
    · exact Cells.wf_write _ _ h
    · exact h
  unfold Predictor.rowAfter
  split
  · exact Cells.wf_write _ _ h1
  · exact h1

theorem wf_row_advance (h : advance w cur p = .ok p') (hw : Cells.wf p.row) : Cells.wf p'.row := by
  rw [(advance_ok_iff.mp h).2.2.2.2]
  exact wf_rowAfter w cur p hw

end Sys2Proof.Machine
end

