-- ==== Sys2Proof/Laws/State.lean ====
section
/-! SUPPORT. One lemma per field and named update, true by rfl, so that no proof unfolds a record update. -/

namespace Sys2Proof.Machine

open Sys2Proof

variable (s : State) (c : Agent) (e : Encoder) (d : Decoder)

/-! ### Agent.remember -/
section
variable (p : Pixel)
@[simp] theorem Agent.remember_width : (c.remember p).width = c.width := rfl
@[simp] theorem Agent.remember_height : (c.remember p).height = c.height := rfl
@[simp] theorem Agent.remember_state : (c.remember p).state = c.state := rfl
@[simp] theorem Agent.remember_cause : (c.remember p).cause = c.cause := rfl
@[simp] theorem Agent.remember_n : (c.remember p).n = c.n := rfl
@[simp] theorem Agent.remember_prev : (c.remember p).prev = c.prev := rfl
@[simp] theorem Agent.remember_runcnt : (c.remember p).runcnt = c.runcnt := rfl
@[simp] theorem Agent.remember_p : (c.remember p).p = c.p := rfl
@[simp] theorem Agent.remember_draw : (c.remember p).draw = c.draw := rfl

/-- The cache after an update, slot by slot. -/
theorem Agent.slot_remember (i : BitVec 5) :
    (c.remember p).slot i = if i = hash p then p else c.slot i := by
  simp only [Agent.slot, Agent.remember]
  by_cases h : i = hash p
  · subst h; simp
  · have h' : (hash p).toNat ≠ i.toNat := fun e => h (BitVec.eq_of_toNat_eq e.symm)
    rw [Vector.getElem_set_ne _ _ h', if_neg h]
end

/-! ### Agent.raise -/
section
variable (k : Cause)
@[simp] theorem Agent.raise_width : (c.raise k).width = c.width := rfl
@[simp] theorem Agent.raise_height : (c.raise k).height = c.height := rfl
@[simp] theorem Agent.raise_state : (c.raise k).state = .fault := rfl
@[simp] theorem Agent.raise_cause : (c.raise k).cause = k := rfl
@[simp] theorem Agent.raise_n : (c.raise k).n = c.n := rfl
@[simp] theorem Agent.raise_prev : (c.raise k).prev = c.prev := rfl
@[simp] theorem Agent.raise_runcnt : (c.raise k).runcnt = c.runcnt := rfl
@[simp] theorem Agent.raise_cache : (c.raise k).cache = c.cache := rfl
@[simp] theorem Agent.raise_p : (c.raise k).p = c.p := rfl
@[simp] theorem Agent.raise_draw : (c.raise k).draw = c.draw + 1 := rfl
end

/-! ### Decoder.raise -/
section
variable (k : Cause)
@[simp] theorem Decoder.raise_core : (d.raise k).core = d.core.raise k := rfl
@[simp] theorem Decoder.raise_ipos : (d.raise k).ipos = d.ipos := rfl
@[simp] theorem Decoder.raise_stream : (d.raise k).stream = d.stream := rfl
@[simp] theorem Decoder.raise_pixels : (d.raise k).pixels = d.pixels.unspecified d.core.draw := rfl
end

/-! ### Agent.initial -/
@[simp] theorem Agent.initial_width : c.initial.width = c.width := rfl
@[simp] theorem Agent.initial_height : c.initial.height = c.height := rfl
@[simp] theorem Agent.initial_state : c.initial.state = c.state := rfl
@[simp] theorem Agent.initial_cause : c.initial.cause = .none := rfl
@[simp] theorem Agent.initial_n : c.initial.n = 0 := rfl
@[simp] theorem Agent.initial_prev : c.initial.prev = .zero := rfl
@[simp] theorem Agent.initial_runcnt : c.initial.runcnt = 0 := rfl
@[simp] theorem Agent.initial_p : c.initial.p = .reset := rfl
@[simp] theorem Agent.initial_draw : c.initial.draw = c.draw + 1 := rfl
@[simp] theorem Agent.initial_slot (i : BitVec 5) : c.initial.slot i = .zero := by
  simp [Agent.slot, Agent.initial]

/-! ### Agent.unspecified -/
section
variable (who : AgentId)
@[simp] theorem Agent.unspecified_width : (c.unspecified who).width = c.width := rfl
@[simp] theorem Agent.unspecified_height : (c.unspecified who).height = c.height := rfl
@[simp] theorem Agent.unspecified_state : (c.unspecified who).state = c.state := rfl
@[simp] theorem Agent.unspecified_cause : (c.unspecified who).cause = c.cause := rfl
@[simp] theorem Agent.unspecified_row : (c.unspecified who).p.row = [] := rfl
@[simp] theorem Agent.unspecified_draw : (c.unspecified who).draw = c.draw := rfl
end

/-! ### Agent.withDimensions -/
section
variable (w h : BitVec 16)
@[simp] theorem Agent.withDimensions_width : (c.withDimensions w h).width = w := rfl
@[simp] theorem Agent.withDimensions_height : (c.withDimensions w h).height = h := rfl
@[simp] theorem Agent.withDimensions_state : (c.withDimensions w h).state = c.state := rfl
@[simp] theorem Agent.withDimensions_cause : (c.withDimensions w h).cause = c.cause := rfl
@[simp] theorem Agent.withDimensions_n : (c.withDimensions w h).n = c.n := rfl
@[simp] theorem Agent.withDimensions_prev : (c.withDimensions w h).prev = c.prev := rfl
@[simp] theorem Agent.withDimensions_runcnt : (c.withDimensions w h).runcnt = c.runcnt := rfl
@[simp] theorem Agent.withDimensions_cache : (c.withDimensions w h).cache = c.cache := rfl
@[simp] theorem Agent.withDimensions_p : (c.withDimensions w h).p = c.p := rfl
@[simp] theorem Agent.withDimensions_draw : (c.withDimensions w h).draw = c.draw := rfl
end

/-! ### The decoder's updates of the whole state -/
section
variable (k : Nat)
@[simp] theorem State.skipBytes_ipos : (s.skipBytes k).dec.ipos = s.dec.ipos + k := rfl
@[simp] theorem State.skipBytes_core : (s.skipBytes k).dec.core = s.dec.core := rfl
@[simp] theorem State.skipBytes_stream : (s.skipBytes k).dec.stream = s.dec.stream := rfl
@[simp] theorem State.skipBytes_pixels : (s.skipBytes k).dec.pixels = s.dec.pixels := rfl
@[simp] theorem State.skipBytes_enc : (s.skipBytes k).enc = s.enc := rfl
@[simp] theorem State.skipBytes_cfg : (s.skipBytes k).cfg = s.cfg := rfl
@[simp] theorem State.skipBytes_pending : (s.skipBytes k).pending = s.pending := rfl
@[simp] theorem State.skipBytes_turn : (s.skipBytes k).turn = s.turn := rfl
end

section
variable (p : Pixel)
@[simp] theorem State.rememberDec_core : (s.rememberDec p).dec.core = s.dec.core.remember p := rfl
@[simp] theorem State.rememberDec_ipos : (s.rememberDec p).dec.ipos = s.dec.ipos := rfl
@[simp] theorem State.rememberDec_stream : (s.rememberDec p).dec.stream = s.dec.stream := rfl
@[simp] theorem State.rememberDec_pixels : (s.rememberDec p).dec.pixels = s.dec.pixels := rfl
@[simp] theorem State.rememberDec_enc : (s.rememberDec p).enc = s.enc := rfl
@[simp] theorem State.rememberDec_cfg : (s.rememberDec p).cfg = s.cfg := rfl
@[simp] theorem State.rememberDec_pending : (s.rememberDec p).pending = s.pending := rfl
@[simp] theorem State.rememberDec_turn : (s.rememberDec p).turn = s.turn := rfl
end

section
variable (f : BitVec 5)
@[simp] theorem State.setRuncnt_runcnt : (s.setRuncnt f).dec.core.runcnt = f := rfl
@[simp] theorem State.setRuncnt_width : (s.setRuncnt f).dec.core.width = s.dec.core.width := rfl
@[simp] theorem State.setRuncnt_height : (s.setRuncnt f).dec.core.height = s.dec.core.height := rfl
@[simp] theorem State.setRuncnt_state : (s.setRuncnt f).dec.core.state = s.dec.core.state := rfl
@[simp] theorem State.setRuncnt_cause : (s.setRuncnt f).dec.core.cause = s.dec.core.cause := rfl
@[simp] theorem State.setRuncnt_n : (s.setRuncnt f).dec.core.n = s.dec.core.n := rfl
@[simp] theorem State.setRuncnt_prev : (s.setRuncnt f).dec.core.prev = s.dec.core.prev := rfl
@[simp] theorem State.setRuncnt_cache : (s.setRuncnt f).dec.core.cache = s.dec.core.cache := rfl
@[simp] theorem State.setRuncnt_slot (i : BitVec 5) : (s.setRuncnt f).dec.core.slot i = s.dec.core.slot i := rfl
@[simp] theorem State.setRuncnt_p : (s.setRuncnt f).dec.core.p = s.dec.core.p := rfl
@[simp] theorem State.setRuncnt_draw : (s.setRuncnt f).dec.core.draw = s.dec.core.draw := rfl
@[simp] theorem State.setRuncnt_ipos : (s.setRuncnt f).dec.ipos = s.dec.ipos := rfl
@[simp] theorem State.setRuncnt_stream : (s.setRuncnt f).dec.stream = s.dec.stream := rfl
@[simp] theorem State.setRuncnt_pixels : (s.setRuncnt f).dec.pixels = s.dec.pixels := rfl
@[simp] theorem State.setRuncnt_enc : (s.setRuncnt f).enc = s.enc := rfl
@[simp] theorem State.setRuncnt_cfg : (s.setRuncnt f).cfg = s.cfg := rfl
@[simp] theorem State.setRuncnt_pending : (s.setRuncnt f).pending = s.pending := rfl
@[simp] theorem State.setRuncnt_turn : (s.setRuncnt f).turn = s.turn := rfl
end

section
variable (k : Cause)
@[simp] theorem State.raiseDec_core : (s.raiseDec k).dec.core = s.dec.core.raise k := rfl
@[simp] theorem State.raiseDec_ipos : (s.raiseDec k).dec.ipos = s.dec.ipos := rfl
@[simp] theorem State.raiseDec_stream : (s.raiseDec k).dec.stream = s.dec.stream := rfl
@[simp] theorem State.raiseDec_pixels : (s.raiseDec k).dec.pixels = s.dec.pixels.unspecified s.dec.core.draw := rfl
@[simp] theorem State.raiseDec_enc : (s.raiseDec k).enc = s.enc := rfl
@[simp] theorem State.raiseDec_cfg : (s.raiseDec k).cfg = s.cfg := rfl
@[simp] theorem State.raiseDec_pending : (s.raiseDec k).pending = s.pending := rfl
@[simp] theorem State.raiseDec_turn : (s.raiseDec k).turn = s.turn := rfl
end

/-! ### The encoder's updates -/
section
variable (i : Instr)
@[simp] theorem Encoder.emit_core : (e.emit i).core = e.core := rfl
@[simp] theorem Encoder.emit_opos : (e.emit i).opos = e.opos + (encode i).length := rfl
@[simp] theorem Encoder.emit_pixels : (e.emit i).pixels = e.pixels := rfl
@[simp] theorem Encoder.emit_stream : (e.emit i).stream = e.stream.writeBytes e.opos (encode i) := rfl
end

@[simp] theorem Encoder.flushRun_runcnt : e.flushRun.core.runcnt = 0 := rfl
@[simp] theorem Encoder.flushRun_width : e.flushRun.core.width = e.core.width := rfl
@[simp] theorem Encoder.flushRun_height : e.flushRun.core.height = e.core.height := rfl
@[simp] theorem Encoder.flushRun_state : e.flushRun.core.state = e.core.state := rfl
@[simp] theorem Encoder.flushRun_cause : e.flushRun.core.cause = e.core.cause := rfl
@[simp] theorem Encoder.flushRun_n : e.flushRun.core.n = e.core.n := rfl
@[simp] theorem Encoder.flushRun_prev : e.flushRun.core.prev = e.core.prev := rfl
@[simp] theorem Encoder.flushRun_cache : e.flushRun.core.cache = e.core.cache := rfl
@[simp] theorem Encoder.flushRun_slot (i : BitVec 5) : e.flushRun.core.slot i = e.core.slot i := rfl
@[simp] theorem Encoder.flushRun_p : e.flushRun.core.p = e.core.p := rfl
@[simp] theorem Encoder.flushRun_draw : e.flushRun.core.draw = e.core.draw := rfl
@[simp] theorem Encoder.flushRun_opos : e.flushRun.opos = e.opos + 1 := rfl
@[simp] theorem Encoder.flushRun_pixels : e.flushRun.pixels = e.pixels := rfl
@[simp] theorem Encoder.flushRun_stream :
    e.flushRun.stream = e.stream.writeBytes e.opos (encode (.run (e.core.runcnt - 1))) := rfl

@[simp] theorem Encoder.count_runcnt : e.count.core.runcnt = e.core.runcnt + 1 := rfl
@[simp] theorem Encoder.count_width : e.count.core.width = e.core.width := rfl
@[simp] theorem Encoder.count_height : e.count.core.height = e.core.height := rfl
@[simp] theorem Encoder.count_state : e.count.core.state = e.core.state := rfl
@[simp] theorem Encoder.count_cause : e.count.core.cause = e.core.cause := rfl
@[simp] theorem Encoder.count_n : e.count.core.n = e.core.n := rfl
@[simp] theorem Encoder.count_prev : e.count.core.prev = e.core.prev := rfl
@[simp] theorem Encoder.count_cache : e.count.core.cache = e.core.cache := rfl
@[simp] theorem Encoder.count_slot (i : BitVec 5) : e.count.core.slot i = e.core.slot i := rfl
@[simp] theorem Encoder.count_p : e.count.core.p = e.core.p := rfl
@[simp] theorem Encoder.count_draw : e.count.core.draw = e.core.draw := rfl
@[simp] theorem Encoder.count_opos : e.count.opos = e.opos := rfl
@[simp] theorem Encoder.count_pixels : e.count.pixels = e.pixels := rfl
@[simp] theorem Encoder.count_stream : e.count.stream = e.stream := rfl

/-! ### The hardware reset and the turn -/
@[simp] theorem Encoder.hardwareReset_state : e.hardwareReset.core.state = .idle := rfl
@[simp] theorem Encoder.hardwareReset_opos : e.hardwareReset.opos = 0 := rfl
@[simp] theorem Encoder.hardwareReset_row : e.hardwareReset.core.p.row = [] := rfl
@[simp] theorem Encoder.hardwareReset_pixels : e.hardwareReset.pixels = e.pixels := rfl
@[simp] theorem Encoder.hardwareReset_stream : e.hardwareReset.stream = e.stream := rfl
@[simp] theorem Decoder.hardwareReset_state : d.hardwareReset.core.state = .idle := rfl
@[simp] theorem Decoder.hardwareReset_ipos : d.hardwareReset.ipos = 0 := rfl
@[simp] theorem Decoder.hardwareReset_row : d.hardwareReset.core.p.row = [] := rfl
@[simp] theorem Decoder.hardwareReset_stream : d.hardwareReset.stream = d.stream := rfl
@[simp] theorem Decoder.hardwareReset_pixels : d.hardwareReset.pixels = d.pixels := rfl

section
variable (who : AgentId)
@[simp] theorem State.passTurn_enc : (s.passTurn who).enc = s.enc := rfl
@[simp] theorem State.passTurn_dec : (s.passTurn who).dec = s.dec := rfl
@[simp] theorem State.passTurn_cfg : (s.passTurn who).cfg = s.cfg := rfl
@[simp] theorem State.passTurn_pending : (s.passTurn who).pending = s.pending := rfl
@[simp] theorem State.passTurn_turn : (s.passTurn who).turn = who.other := rfl
end

end Sys2Proof.Machine
end

