-- ==== Sys2Proof/Laws/Decoder.lean ====
section
/-! SUPPORT. Laws of the decoder's shared operations: everything a step that completes did. -/

namespace Sys2Proof.Machine

open Sys2Proof

/-- Everything the end of a decoder step can do. -/
theorem retire_next_iff {px : Pixel} {s t : State} :
    retire px s = .next t ↔
      ∃ core, s.dec.core.finish px = .ok core ∧
        t = { s with dec := { s.dec with
          core := core, pixels := s.dec.pixels.writePixel s.dec.core.n.toNat px } } := by
  unfold retire
  cases s.dec.core.finish px with
  | ok core =>
    simp only [Host.Outcome.next.injEq, Except.ok.injEq]
    exact ⟨fun h => ⟨core, rfl, h.symm⟩, fun ⟨_, hc, h⟩ => by rw [h, hc]⟩
  | error f => exact ⟨fun h => (by cases h), fun ⟨_, hc, _⟩ => (by cases hc)⟩

/-- A decoder step is never refused. -/
theorem retire_ne_refused (px : Pixel) (s : State) (r : Refusal) : retire px s ≠ .refused r := by
  unfold retire
  cases s.dec.core.finish px <;> simp

/-- The end of a decoder step fails only where `advance` does. -/
theorem retire_fault {px : Pixel} {s : State} {f : Fault} (h : retire px s = .fault f) :
    advance s.dec.core.width px s.dec.core.p = .error f := by
  unfold retire at h
  cases hf : s.dec.core.finish px with
  | ok core => simp [hf] at h
  | error g =>
    rw [hf] at h
    cases h
    exact finish_error_iff.mp hf

theorem retire_completes {px : Pixel} {s : State} (h : s.dec.core.p.Readable s.dec.core.width) :
    ∃ t, retire px s = .next t := by
  obtain ⟨p, hp⟩ := advance_completes h px
  exact ⟨_, retire_next_iff.mpr ⟨_, finish_ok_iff.mpr ⟨p, hp, rfl⟩, rfl⟩⟩

/-- From `s`, a step that moved IPOS by `k`, wrote the cache and retired `px` is a decoder step. -/
theorem retireColour_stepped {k : Nat} {px : Pixel} {s t : State} (h : retireColour k px s = .next t) :
    DecoderStepped s t px k s.dec.core.runcnt true := by
  obtain ⟨core, hc, rfl⟩ := retire_next_iff.mp h
  obtain ⟨p, hp, rfl⟩ := finish_ok_iff.mp hc
  refine ⟨⟨rfl, rfl, rfl, fun i => ?_, hp, rfl, rfl, rfl, rfl, rfl⟩, rfl, ?_, ?_, ?_, fun a ha => ?_,
    rfl, rfl, rfl, rfl, rfl⟩
  · simp only [true_and]; exact Agent.slot_remember s.dec.core px i
  · simp [Memory.read_writePixel]
  · simp [Memory.read_writePixel]
  · simp [Memory.read_writePixel]
  · simp only [Memory.read_writePixel, State.rememberDec_core, State.skipBytes_core, Agent.remember_n,
      State.rememberDec_pixels, State.skipBytes_pixels]
    rw [if_neg (by omega), if_neg (by omega), if_neg (by omega)]

/-- The same for a step that repeats PREV: no cache write, RUNCNT at `rc`. -/
theorem retireRepeat_stepped {k : Nat} {rc : BitVec 5} {s t : State}
    (h : retire s.dec.core.prev ((s.skipBytes k).setRuncnt rc) = .next t) :
    DecoderStepped s t s.dec.core.prev k rc false := by
  obtain ⟨core, hc, rfl⟩ := retire_next_iff.mp h
  obtain ⟨p, hp, rfl⟩ := finish_ok_iff.mp hc
  refine ⟨⟨rfl, rfl, rfl, fun i => ?_, hp, rfl, rfl, rfl, rfl, rfl⟩, rfl, ?_, ?_, ?_, fun a ha => ?_,
    rfl, rfl, rfl, rfl, rfl⟩
  · simp; rfl
  · simp [Memory.read_writePixel]
  · simp [Memory.read_writePixel]
  · simp [Memory.read_writePixel]
  · simp only [Memory.read_writePixel, State.setRuncnt_n, State.skipBytes_core, State.setRuncnt_pixels,
      State.skipBytes_pixels]
    rw [if_neg (by omega), if_neg (by omega), if_neg (by omega)]

theorem retireColour_completes {k : Nat} {px : Pixel} {s : State}
    (h : s.dec.core.p.Readable s.dec.core.width) : ∃ t, retireColour k px s = .next t :=
  retire_completes h

theorem retireRepeat_completes {k : Nat} {rc : BitVec 5} {px : Pixel} {s : State}
    (h : s.dec.core.p.Readable s.dec.core.width) :
    ∃ t, retire px ((s.skipBytes k).setRuncnt rc) = .next t :=
  retire_completes h

theorem retireColour_fault {k : Nat} {px : Pixel} {s : State} {f : Fault}
    (h : retireColour k px s = .fault f) : advance s.dec.core.width px s.dec.core.p = .error f :=
  retire_fault (s := (s.skipBytes k).rememberDec px) h

theorem retireRepeat_fault {k : Nat} {rc : BitVec 5} {px : Pixel} {s : State} {f : Fault}
    (h : retire px ((s.skipBytes k).setRuncnt rc) = .fault f) :
    advance s.dec.core.width px s.dec.core.p = .error f :=
  retire_fault (s := (s.skipBytes k).setRuncnt rc) h

/-- Every way an opcode can complete: as a colour of its length, or as a RUN. -/
theorem exec_next {i : Instr} {s t : State} (h : exec i s = .next t) :
    (∃ px, DecoderStepped s t px (encode i).length s.dec.core.runcnt true ∧ i.opcode ≠ .run) ∨
      ∃ f, i = .run f ∧ DecoderStepped s t s.dec.core.prev 1 f false := by
  cases i with
  | run f => exact .inr ⟨f, rfl, retireRepeat_stepped h⟩
  | rgb r g b => exact .inl ⟨_, retireColour_stepped h, by simp [Instr.opcode]⟩
  | diff2 vr vg vb => exact .inl ⟨_, retireColour_stepped h, by simp [Instr.opcode]⟩
  | index i => exact .inl ⟨_, retireColour_stepped h, by simp [Instr.opcode]⟩
  | diff3 vr vg vb => exact .inl ⟨_, retireColour_stepped h, by simp [Instr.opcode]⟩
  | diff vr vg vb => exact .inl ⟨_, retireColour_stepped h, by simp [Instr.opcode]⟩
  | luma vg vgr vgb => exact .inl ⟨_, retireColour_stepped h, by simp [Instr.opcode]⟩

/-- An opcode that stops the model does so in `advance`. -/
theorem exec_fault {i : Instr} {s : State} {f : Fault} (h : exec i s = .fault f) :
    ∃ px, advance s.dec.core.width px s.dec.core.p = .error f := by
  cases i with
  | run f => exact ⟨_, retireRepeat_fault (k := 1) h⟩
  | rgb r g b => exact ⟨_, retireColour_fault (k := 4) h⟩
  | diff2 vr vg vb => exact ⟨_, retireColour_fault (k := 3) h⟩
  | index i => exact ⟨_, retireColour_fault (k := 1) h⟩
  | diff3 vr vg vb => exact ⟨_, retireColour_fault (k := 2) h⟩
  | diff vr vg vb => exact ⟨_, retireColour_fault (k := 1) h⟩
  | luma vg vgr vgb => exact ⟨_, retireColour_fault (k := 2) h⟩

/-! The three things a decoder step is. -/

theorem decoderStep_run {s : State} (h : s.dec.core.runcnt ≠ 0) : decoderStep s = runContinuation s :=
  if_pos (by simpa [Agent.runInFlight] using h)

theorem decoderStep_opcode {s : State} {i : Instr} (h : s.dec.core.runcnt = 0)
    (hf : fetch s.dec.stream s.dec.ipos = some i) : decoderStep s = exec i s := by
  unfold decoderStep
  rw [if_neg (by simp [Agent.runInFlight, h]), hf]

theorem decoderStep_underrun {s : State} (h : s.dec.core.runcnt = 0)
    (hf : fetch s.dec.stream s.dec.ipos = none) :
    decoderStep s = .next (s.raiseDec .streamUnderrun) := by
  unfold decoderStep
  rw [if_neg (by simp [Agent.runInFlight, h]), hf]

/-- Every way a decoder step can complete: a run continuation, an opcode, or StreamUnderrun. -/
theorem decoderStep_next {s t : State} (h : decoderStep s = .next t) :
    (0 < s.dec.core.runcnt.toNat ∧
        DecoderStepped s t s.dec.core.prev 0 (s.dec.core.runcnt - 1) false) ∨
      (s.dec.core.runcnt = 0 ∧ ∃ i, fetch s.dec.stream s.dec.ipos = some i ∧ exec i s = .next t) ∨
      (s.dec.core.runcnt = 0 ∧ fetch s.dec.stream s.dec.ipos = none ∧ t = s.raiseDec .streamUnderrun) := by
  unfold decoderStep at h
  split at h
  · rename_i hr
    have h0 : s.dec.core.runcnt ≠ 0 := by simpa [Agent.runInFlight] using hr
    refine .inl ⟨Nat.pos_of_ne_zero fun e => h0 (BitVec.eq_of_toNat_eq e), ?_⟩
    exact retireRepeat_stepped (k := 0) h
  · rename_i hr
    have h0 : s.dec.core.runcnt = 0 := by simpa [Agent.runInFlight] using hr
    split at h
    · rename_i i hi
      exact .inr (.inl ⟨h0, i, hi, h⟩)
    · rename_i hi
      cases h
      exact .inr (.inr ⟨h0, hi, rfl⟩)

theorem decoderStep_fault {s : State} {f : Fault} (h : decoderStep s = .fault f) :
    ∃ px, advance s.dec.core.width px s.dec.core.p = .error f := by
  unfold decoderStep at h
  split at h
  · exact ⟨_, retireRepeat_fault (k := 0) h⟩
  · split at h
    · exact exec_fault h
    · cases h

end Sys2Proof.Machine
end

