-- ==== Sys2Proof/Laws/Encoder.lean ====
section
/-! SUPPORT. Laws of the encoder's shared operations: the three ways steps 2 to 6 can go, and everything a step that completes did. -/

namespace Sys2Proof.Machine

open Sys2Proof

/-- The RUN byte of a pending run, as the flush emits it. -/
theorem flush_bytes : ∀ rc : BitVec 5,
    (if rc != 0 then encode (.run (rc - 1)) else []) = pendingRun rc := by decide

/-- The byte of a run flushed in the step that counts its last pixel. -/
theorem counted_run_bytes : ∀ rc : BitVec 5, rc.toNat ≤ 30 →
    encode (.run (rc + 1 - 1)) = [BitVec.ofNat 8 (0xE0 + rc.toNat)] := by decide

/-- What steps 2 to 6 leave: bytes `out` appended, RUNCNT at `rc`, the cache written when `colour`. -/
def Encoder.after (px : Pixel) (out : List Byte) (rc : BitVec 5) (colour : Bool) (e : Encoder) : Encoder :=
  { e with
    core := { (if colour then e.core.remember px else e.core) with runcnt := rc }
    opos := e.opos + out.length
    stream := e.stream.writeBytes e.opos out }

theorem Encoder.flushPending_eq (e : Encoder) (px : Pixel) :
    e.flushPending = e.after px (pendingRun e.core.runcnt) 0 false := by
  rw [← flush_bytes]
  unfold Encoder.flushPending Agent.runInFlight
  cases h : e.core.runcnt != 0 with
  | true => rfl
  | false =>
    have h0 : e.core.runcnt = 0 := by simpa using h
    obtain ⟨⟨_, _, _, _, _, _, _, _, _, _⟩, _, _, _⟩ := e
    simp only at h0
    subst h0
    rfl

/-- A run pixel that is only counted. -/
theorem Encoder.opcodes_count {px : Pixel} {e : Encoder} (hp : px = e.core.prev)
    (h31 : e.core.runcnt + 1 ≠ 31) (hl : e.core.lastPixel = false) :
    e.opcodes px = e.after px [] (e.core.runcnt + 1) false := by
  have hc : ¬(e.count.core.runcnt = 31 ∨ e.core.lastPixel = true) := by
    rintro (h | h)
    · exact h31 h
    · rw [hl] at h; cases h
  simp only [Encoder.opcodes, if_pos hp, Encoder.countRun, if_neg hc]
  rfl

/-- A run pixel that flushes the run it ends. -/
theorem Encoder.opcodes_flush {px : Pixel} {e : Encoder} (hp : px = e.core.prev)
    (h : e.core.runcnt + 1 = 31 ∨ e.core.lastPixel = true) :
    e.opcodes px = e.after px (encode (.run (e.core.runcnt + 1 - 1))) 0 false := by
  have hc : e.count.core.runcnt = 31 ∨ e.core.lastPixel = true := h
  simp only [Encoder.opcodes, if_pos hp, Encoder.countRun, if_pos hc]
  rfl

/-- A pixel that hits its cache slot. -/
theorem Encoder.opcodes_hit {px : Pixel} {e : Encoder} (hp : px ≠ e.core.prev)
    (h : e.core.slot (hash px) = px) :
    e.opcodes px =
      e.after px (pendingRun e.core.runcnt ++ encode (.index (hash px))) 0 false := by
  simp only [Encoder.opcodes, if_neg hp, Encoder.flushPending_eq e px]
  have hs : (e.after px (pendingRun e.core.runcnt) 0 false).core.slot (hash px) = px := h
  simp only [Encoder.emitColour, if_pos hs]
  simp [Encoder.emit, Encoder.after, Memory.writeBytes_append, Nat.add_assoc]

/-- A pixel that takes the opcode the chain selects. -/
theorem Encoder.opcodes_miss {px : Pixel} {e : Encoder} (hp : px ≠ e.core.prev)
    (h : e.core.slot (hash px) ≠ px) :
    e.opcodes px =
      e.after px (pendingRun e.core.runcnt ++ encode (selectOpcode (subPixel px e.core.p.pred) px)) 0
        true := by
  simp only [Encoder.opcodes, if_neg hp, Encoder.flushPending_eq e px]
  have hs : (e.after px (pendingRun e.core.runcnt) 0 false).core.slot (hash px) ≠ px := h
  simp only [Encoder.emitColour, if_neg hs]
  have hq : (e.after px (pendingRun e.core.runcnt) 0 false).core.p = e.core.p := rfl
  rw [hq]
  simp [Encoder.emit, Encoder.after, Memory.writeBytes_append, Nat.add_assoc, Agent.remember]

/-- The four ways steps 2 to 6 can go, with what each leaves. -/
theorem Encoder.opcodes_cases (px : Pixel) (e : Encoder) :
    ∃ out rc colour, e.opcodes px = e.after px out rc colour ∧
      ((px = e.core.prev ∧ colour = false ∧
          ((out = [] ∧ rc = e.core.runcnt + 1 ∧ e.core.runcnt + 1 ≠ 31 ∧ e.core.lastPixel = false) ∨
            (out = encode (.run (e.core.runcnt + 1 - 1)) ∧ rc = 0 ∧
              (e.core.runcnt + 1 = 31 ∨ e.core.lastPixel = true)))) ∨
        (px ≠ e.core.prev ∧ rc = 0 ∧
          ∃ i, out = pendingRun e.core.runcnt ++ encode i ∧
            ((colour = false ∧ e.core.slot (hash px) = px ∧ i = .index (hash px)) ∨
              (colour = true ∧ e.core.slot (hash px) ≠ px ∧
                i = selectOpcode (subPixel px e.core.p.pred) px)))) := by
  by_cases hp : px = e.core.prev
  · by_cases hf : e.core.runcnt + 1 = 31 ∨ e.core.lastPixel = true
    · exact ⟨_, _, _, e.opcodes_flush hp hf, .inl ⟨hp, rfl, .inr ⟨rfl, rfl, hf⟩⟩⟩
    · have h31 : e.core.runcnt + 1 ≠ 31 := fun h => hf (.inl h)
      have hl : e.core.lastPixel = false := by simpa using fun h => hf (.inr h)
      exact ⟨_, _, _, e.opcodes_count hp h31 hl, .inl ⟨hp, rfl, .inl ⟨rfl, rfl, h31, hl⟩⟩⟩
  · by_cases hs : e.core.slot (hash px) = px
    · exact ⟨_, _, _, e.opcodes_hit hp hs, .inr ⟨hp, rfl, _, rfl, .inl ⟨rfl, hs, rfl⟩⟩⟩
    · exact ⟨_, _, _, e.opcodes_miss hp hs, .inr ⟨hp, rfl, _, rfl, .inr ⟨rfl, hs, rfl⟩⟩⟩

/-- The opcode the chain selects is always well formed. -/
theorem selectOpcode_wellFormed (v px : Pixel) : (selectOpcode v px).wellFormed = true := by
  unfold selectOpcode
  split_ifs <;> rfl

/-- The chain never selects a RUN: runs are steps 2 and 3. -/
theorem selectOpcode_ne_run (v px : Pixel) : (selectOpcode v px).opcode ≠ .run := by
  unfold selectOpcode
  split_ifs <;> simp [Instr.opcode]

@[simp] theorem Encoder.after_width (px : Pixel) (out rc c) (e : Encoder) :
    (e.after px out rc c).core.width = e.core.width := by cases c <;> rfl
@[simp] theorem Encoder.after_height (px : Pixel) (out rc c) (e : Encoder) :
    (e.after px out rc c).core.height = e.core.height := by cases c <;> rfl
@[simp] theorem Encoder.after_state (px : Pixel) (out rc c) (e : Encoder) :
    (e.after px out rc c).core.state = e.core.state := by cases c <;> rfl
@[simp] theorem Encoder.after_cause (px : Pixel) (out rc c) (e : Encoder) :
    (e.after px out rc c).core.cause = e.core.cause := by cases c <;> rfl
@[simp] theorem Encoder.after_n (px : Pixel) (out rc c) (e : Encoder) :
    (e.after px out rc c).core.n = e.core.n := by cases c <;> rfl
@[simp] theorem Encoder.after_p (px : Pixel) (out rc c) (e : Encoder) :
    (e.after px out rc c).core.p = e.core.p := by cases c <;> rfl
@[simp] theorem Encoder.after_draw (px : Pixel) (out rc c) (e : Encoder) :
    (e.after px out rc c).core.draw = e.core.draw := by cases c <;> rfl
@[simp] theorem Encoder.after_pixels (px : Pixel) (out rc c) (e : Encoder) :
    (e.after px out rc c).pixels = e.pixels := rfl
@[simp] theorem Encoder.after_runcnt (px : Pixel) (out rc c) (e : Encoder) :
    (e.after px out rc c).core.runcnt = rc := rfl

/-- Everything an encoder step that completes does. -/
theorem encoderStep_next_iff {s t : State} :
    encoderStep s = .next t ↔
      ∃ px core, s.enc.pixels.readPixel s.enc.core.n.toNat = some px ∧
        (s.enc.opcodes px).core.finish px = .ok core ∧
        t = { s with enc := { s.enc.opcodes px with core := core } } := by
  unfold encoderStep
  cases s.enc.pixels.readPixel s.enc.core.n.toNat with
  | none => exact ⟨fun h => (by cases h), fun ⟨_, _, h, _⟩ => (by cases h)⟩
  | some px =>
    simp only [Option.some.injEq]
    cases hf : (s.enc.opcodes px).core.finish px with
    | error f => exact ⟨fun h => (by cases h), fun ⟨_, _, e, h, _⟩ => (by subst e; rw [hf] at h; cases h)⟩
    | ok core =>
      simp only [Host.Outcome.next.injEq]
      constructor
      · rintro rfl; exact ⟨px, core, rfl, hf, rfl⟩
      · rintro ⟨_, core', rfl, h, rfl⟩
        rw [hf] at h; cases h; rfl

/-- The end of an encoder step whose steps 2 to 6 left `after px out rc colour`. -/
theorem encoderStep_stepped {s t : State} {px : Pixel} {out : List Byte} {rc : BitVec 5} {colour : Bool}
    {core : Agent} (ho : s.enc.opcodes px = s.enc.after px out rc colour)
    (hf : (s.enc.opcodes px).core.finish px = .ok core)
    (ht : t = { s with enc := { s.enc.opcodes px with core := core } }) :
    EncoderStepped s t px out rc colour := by
  rw [ho] at hf ht
  obtain ⟨p, hp, rfl⟩ := finish_ok_iff.mp hf
  subst ht
  refine ⟨⟨rfl, ?_, rfl, fun i => ?_, ?_, ?_, ?_, ?_, ?_, ?_⟩, rfl, fun k h => ?_, fun a ha => ?_,
    rfl, rfl, rfl, rfl, rfl⟩
  · cases colour <;> rfl
  · cases colour
    · rfl
    · simp only [true_and]; exact Agent.slot_remember s.enc.core px i
  · simpa using hp
  · simp [stateAfter]
  · simp
  · simp
  · simp
  · simp
  · exact Memory.read_writeBytes_inside out s.enc.stream s.enc.opos k h
  · exact Memory.read_writeBytes_outside out s.enc.stream ha

/-- With its pixel there and the row entries it reads present, an encoder step completes. -/
theorem encoderStep_completes {s : State} {px : Pixel} {out : List Byte} {rc : BitVec 5} {colour : Bool}
    (hx : s.enc.pixels.readPixel s.enc.core.n.toNat = some px)
    (hr : s.enc.core.p.Readable s.enc.core.width)
    (ho : s.enc.opcodes px = s.enc.after px out rc colour) :
    ∃ t, encoderStep s = .next t ∧ EncoderStepped s t px out rc colour := by
  obtain ⟨p, hp⟩ := advance_completes hr px
  have hf := finish_ok_iff (c := (s.enc.opcodes px).core) (px := px) |>.mpr
    ⟨p, by rw [ho]; simpa using hp, rfl⟩
  exact ⟨_, encoderStep_next_iff.mpr ⟨px, _, hx, hf, rfl⟩, encoderStep_stepped ho hf rfl⟩

/-- Every way an encoder step can complete. -/
theorem encoderStep_next {s t : State} (h : encoderStep s = .next t) :
    ∃ px out rc colour, s.enc.pixels.readPixel s.enc.core.n.toNat = some px ∧
      s.enc.opcodes px = s.enc.after px out rc colour ∧ EncoderStepped s t px out rc colour := by
  obtain ⟨px, core, hx, hf, ht⟩ := encoderStep_next_iff.mp h
  obtain ⟨out, rc, colour, ho, -⟩ := s.enc.opcodes_cases px
  exact ⟨px, out, rc, colour, hx, ho, encoderStep_stepped ho hf ht⟩

/-- An encoder step stops where its input pixel is missing, or in `advance`. -/
theorem encoderStep_fault {s : State} {f : Fault} (h : encoderStep s = .fault f) :
    (s.enc.pixels.readPixel s.enc.core.n.toNat = none ∧ f = .pixelAbsent s.enc.core.n.toNat) ∨
      ∃ px, advance s.enc.core.width px s.enc.core.p = .error f := by
  unfold encoderStep at h
  cases hx : s.enc.pixels.readPixel s.enc.core.n.toNat with
  | none => rw [hx] at h; cases h; exact .inl ⟨rfl, rfl⟩
  | some px =>
    rw [hx] at h
    refine .inr ⟨px, ?_⟩
    obtain ⟨out, rc, colour, ho, -⟩ := s.enc.opcodes_cases px
    simp only at h
    cases hf : (s.enc.opcodes px).core.finish px with
    | ok core => rw [hf] at h; cases h
    | error g =>
      rw [hf] at h; cases h
      have := finish_error_iff.mp hf
      rw [ho] at this
      simpa using this

end Sys2Proof.Machine
end

