-- ==== Sys2Proof/Laws/PerInstr.lean ====
section
/-! SUPPORT. Laws stated for every instruction, one lemma per constructor. -/

namespace Sys2Proof.Laws.LeadingByte

open Sys2Proof

/-- The first byte of a well-formed opcode names the opcode, and by it how many bytes there are (R91,
R92). -/
def Statement (i : Instr) : Prop :=
  i.wellFormed = true →
    ∃ b0 more, encode i = b0 :: more ∧ classify b0 = i.opcode ∧ more.length + 1 = (classify b0).length

/-- The proof for every constructor: `classify_leading`. -/
theorem of_head {i : Instr} {b0 : Byte} {more : List Byte} (h : encode i = b0 :: more) : Statement i := by
  intro hi
  have hc : classify b0 = i.opcode := classify_leading hi (by rw [h]; rfl)
  refine ⟨b0, more, h, hc, ?_⟩
  rw [hc, ← encode_length, h]; rfl

theorem rgb (r g b : Byte) : Statement (.rgb r g b) := of_head rfl
theorem diff2 (vr vg vb : BitVec 7) : Statement (.diff2 vr vg vb) := of_head rfl
theorem run (f : BitVec 5) : Statement (.run f) := of_head rfl
theorem index (i : BitVec 5) : Statement (.index i) := of_head rfl
theorem diff3 (vr : BitVec 4) (vg : BitVec 5) (vb : BitVec 4) : Statement (.diff3 vr vg vb) := of_head rfl
theorem diff (vr vg vb : BitVec 2) : Statement (.diff vr vg vb) := of_head rfl
theorem luma (vg : BitVec 6) (vgr vgb : BitVec 4) : Statement (.luma vg vgr vgb) := of_head rfl

end Sys2Proof.Laws.LeadingByte
end

