-- ==== Sys2Proof/Laws/Step.lean ====
section
/-! SUPPORT. Laws of the step: what a step can do to each agent, start and the hardware reset among it. -/

namespace Sys2Proof.Machine

open Sys2Proof

/-- At power-on every memory and both row buffers are in canonical form: nothing is listed. -/
theorem reset_memories_wf :
    State.reset.enc.pixels.wf ∧ State.reset.enc.stream.wf ∧ State.reset.dec.stream.wf ∧
      State.reset.dec.pixels.wf ∧ Cells.wf State.reset.enc.core.p.row ∧
      Cells.wf State.reset.dec.core.p.row := by
  refine ⟨?_, ?_, ?_, ?_, ?_, ?_⟩ <;> exact List.Pairwise.nil

/-! ### Start -/

/-- The dimensions an accepted start has found (R261, R262, R275). -/
def Agent.Startable (cfg : Config) (c : Agent) : Prop :=
  0 < c.width.toNat ∧ 0 < c.height.toNat ∧ c.width.toNat ≤ cfg.maxWidth.toNat

/-- The verdict of a start, as one case analysis. -/
theorem startVerdict_cases (cfg : Config) (c : Agent) :
    (c.state = .busy ∧ c.startVerdict cfg = .ignored) ∨
      (c.state ≠ .busy ∧ ¬c.Startable cfg ∧ c.startVerdict cfg =
        .refused (if c.width = 0 ∨ c.height = 0 then .badDimensions else .initFailure)) ∨
      (c.state ≠ .busy ∧ c.Startable cfg ∧ c.startVerdict cfg = .accepted) := by
  have pos : ∀ x : BitVec 16, x ≠ 0 ↔ 0 < x.toNat := fun x =>
    ⟨fun h => Nat.pos_of_ne_zero fun e => h (BitVec.eq_of_toNat_eq e),
      fun h e => by rw [e] at h; simp at h⟩
  unfold Agent.startVerdict
  by_cases hb : c.state = .busy
  · exact .inl ⟨hb, if_pos hb⟩
  rw [if_neg hb]
  by_cases hz : c.width = 0 ∨ c.height = 0
  · refine .inr (.inl ⟨hb, ?_, by simp only [if_pos hz]⟩)
    rintro ⟨hw, hh, -⟩
    exact hz.elim ((pos _).mpr hw) ((pos _).mpr hh)
  rw [if_neg hz, if_neg hz]
  have hz' := not_or.mp hz
  by_cases hm : cfg.maxWidth < c.width
  · refine .inr (.inl ⟨hb, ?_, if_pos hm⟩)
    rintro ⟨-, -, hw⟩
    have := BitVec.lt_def.mp hm
    omega
  · refine .inr (.inr ⟨hb, ⟨(pos _).mp hz'.1, (pos _).mp hz'.2, ?_⟩, if_neg hm⟩)
    have := mt BitVec.lt_def.mpr hm
    omega

/-- Everything a start of the decoder can do. -/
theorem Decoder.start_cases (cfg : Config) (d : Decoder) :
    (d.core.state = .busy ∧ d.start cfg = d) ∨
      (d.core.state ≠ .busy ∧ ¬d.core.Startable cfg ∧
        d.start cfg =
          ({ d with core := d.core.unspecified .decoder, ipos := freeCursor .decoder d.core } : Decoder).raise
            (if d.core.width = 0 ∨ d.core.height = 0 then .badDimensions else .initFailure)) ∨
      (d.core.state ≠ .busy ∧ d.core.Startable cfg ∧
        d.start cfg = { d with core := { d.core.initial with state := .busy }, ipos := 0 }) := by
  rcases startVerdict_cases cfg d.core with ⟨hb, hv⟩ | ⟨hb, hs, hv⟩ | ⟨hb, hs, hv⟩
  · exact .inl ⟨hb, by simp only [Decoder.start, hv]⟩
  · exact .inr (.inl ⟨hb, hs, by simp only [Decoder.start, hv]⟩)
  · exact .inr (.inr ⟨hb, hs, by simp only [Decoder.start, hv]⟩)

/-- Everything a start of the encoder can do. -/
theorem Encoder.start_cases (cfg : Config) (e : Encoder) :
    (e.core.state = .busy ∧ e.start cfg = e) ∨
      (e.core.state ≠ .busy ∧ ¬e.core.Startable cfg ∧
        e.start cfg =
          { e with
            core := (e.core.unspecified .encoder).raise
              (if e.core.width = 0 ∨ e.core.height = 0 then .badDimensions else .initFailure)
            opos := freeCursor .encoder e.core }) ∨
      (e.core.state ≠ .busy ∧ e.core.Startable cfg ∧
        e.start cfg = { e with core := { e.core.initial with state := .busy }, opos := 0 }) := by
  rcases startVerdict_cases cfg e.core with ⟨hb, hv⟩ | ⟨hb, hs, hv⟩ | ⟨hb, hs, hv⟩
  · exact .inl ⟨hb, by simp only [Encoder.start, hv]⟩
  · exact .inr (.inl ⟨hb, hs, by simp only [Encoder.start, hv]⟩)
  · exact .inr (.inr ⟨hb, hs, by simp only [Encoder.start, hv]⟩)

/-! ### The step -/

/-- A host operation that was carried out: it touched one agent and nothing else. -/
theorem hostStep_next {op : HostOp} {s t : State} (h : hostStep op s = .next t) :
    (∃ e, t = { s with enc := e } ∧
      ((s.enc.core.state ≠ .busy ∧ ∃ w h, op = .writeDimensions .encoder w h ∧
          e = { s.enc with core := s.enc.core.withDimensions w h }) ∨
        (s.enc.core.state ≠ .busy ∧ ∃ raw, op = .supplyPixels raw ∧
          e = { s.enc with pixels := Memory.ofBytes 0 raw }) ∨
        (op = .start .encoder ∧ e = s.enc.start s.cfg) ∨
        (op = .hardwareReset .encoder ∧ e = s.enc.hardwareReset))) ∨
    (∃ d, t = { s with dec := d } ∧
      ((s.dec.core.state ≠ .busy ∧ ∃ w h, op = .writeDimensions .decoder w h ∧
          d = { s.dec with core := s.dec.core.withDimensions w h }) ∨
        (s.dec.core.state ≠ .busy ∧ ∃ bytes, op = .supplyStream bytes ∧
          d = { s.dec with stream := Memory.ofBytes 0 bytes }) ∨
        (op = .start .decoder ∧ d = s.dec.start s.cfg) ∨
        (op = .hardwareReset .decoder ∧ d = s.dec.hardwareReset))) ∨
    (op = .pass ∧ t = s) := by
  cases op with
  | writeDimensions who w h' =>
    cases who <;> simp only [hostStep] at h <;> split at h <;> cases h
    · exact .inl ⟨_, rfl, .inl ⟨‹_›, _, _, rfl, rfl⟩⟩
    · exact .inr (.inl ⟨_, rfl, .inl ⟨‹_›, _, _, rfl, rfl⟩⟩)
  | supplyPixels raw =>
    simp only [hostStep] at h
    split at h <;> cases h
    exact .inl ⟨_, rfl, .inr (.inl ⟨‹_›, _, rfl, rfl⟩)⟩
  | supplyStream bytes =>
    simp only [hostStep] at h
    split at h <;> cases h
    exact .inr (.inl ⟨_, rfl, .inr (.inl ⟨‹_›, _, rfl, rfl⟩)⟩)
  | start who =>
    cases who <;> cases h
    · exact .inl ⟨_, rfl, .inr (.inr (.inl ⟨rfl, rfl⟩))⟩
    · exact .inr (.inl ⟨_, rfl, .inr (.inr (.inl ⟨rfl, rfl⟩))⟩)
  | hardwareReset who =>
    cases who <;> cases h
    · exact .inl ⟨_, rfl, .inr (.inr (.inr ⟨rfl, rfl⟩))⟩
    · exact .inr (.inl ⟨_, rfl, .inr (.inr (.inr ⟨rfl, rfl⟩))⟩)
  | pass => cases h; exact .inr (.inr ⟨rfl, rfl⟩)

theorem mover_decoder {s : State} (h : s.mover = some .decoder) : s.dec.core.state = .busy := by
  unfold State.mover at h
  cases ht : s.turn <;> simp only [ht, AgentId.other] at h <;> split at h
  · cases h
  · split at h
    · simpa [State.isBusy] using ‹s.isBusy .decoder = true›
    · cases h
  · simpa [State.isBusy] using ‹s.isBusy .decoder = true›
  · split at h <;> cases h

theorem mover_encoder {s : State} (h : s.mover = some .encoder) : s.enc.core.state = .busy := by
  unfold State.mover at h
  cases ht : s.turn <;> simp only [ht, AgentId.other] at h <;> split at h
  · simpa [State.isBusy] using ‹s.isBusy .encoder = true›
  · split at h <;> cases h
  · cases h
  · split at h
    · simpa [State.isBusy] using ‹s.isBusy .encoder = true›
    · cases h

/-- Everything a step can be: a host operation, or one pixel step of a BUSY agent, or nothing. -/
theorem step_eq_cases (s : State) :
    (∃ op rest, s.pending = op :: rest ∧ op ≠ .pass ∧ step s = hostStep op { s with pending := rest }) ∨
    (∃ rest, (s.pending = [] ∧ rest = [] ∨ s.pending = .pass :: rest) ∧
      ((s.mover = some .decoder ∧ s.dec.core.state = .busy ∧
          step s = decoderStep { s with pending := rest, turn := .encoder }) ∨
        (s.mover = some .encoder ∧ s.enc.core.state = .busy ∧
          step s = encoderStep { s with pending := rest, turn := .decoder }) ∨
        (s.mover = none ∧ step s = .next { s with pending := rest }))) := by
  have core : ∀ rest, step s = coreStep { s with pending := rest } →
      ((s.mover = some .decoder ∧ s.dec.core.state = .busy ∧
          step s = decoderStep { s with pending := rest, turn := .encoder }) ∨
        (s.mover = some .encoder ∧ s.enc.core.state = .busy ∧
          step s = encoderStep { s with pending := rest, turn := .decoder }) ∨
        (s.mover = none ∧ step s = .next { s with pending := rest })) := by
    intro rest he
    have hm : ({ s with pending := rest } : State).mover = s.mover := rfl
    simp only [coreStep, hm] at he
    cases hq : s.mover with
    | none => rw [hq] at he; exact .inr (.inr ⟨rfl, he⟩)
    | some who =>
      rw [hq] at he
      cases who with
      | decoder => exact .inl ⟨rfl, mover_decoder hq, he⟩
      | encoder => exact .inr (.inl ⟨rfl, mover_encoder hq, he⟩)
  cases hp : s.pending with
  | nil =>
    refine .inr ⟨[], .inl ⟨rfl, rfl⟩, core [] ?_⟩
    have : step s = coreStep s := by simp only [step, machineStep, hp]
    rw [this]; congr 1; rw [← hp]
  | cons op rest =>
    by_cases ho : op = .pass
    · subst ho
      exact .inr ⟨rest, .inr rfl, core rest (by simp only [step, machineStep, hp])⟩
    · refine .inl ⟨op, rest, rfl, ho, ?_⟩
      cases op <;> first | exact absurd rfl ho | simp only [step, machineStep, hp]

/-- Everything a step can do to the encoder, and that MAX_WIDTH stays. -/
theorem step_enc {s t : State} (h : step s = .next t) :
    t.cfg = s.cfg ∧
    (t.enc = s.enc ∨
      (s.enc.core.state ≠ .busy ∧
        ((∃ w h, t.enc = { s.enc with core := s.enc.core.withDimensions w h }) ∨
          ∃ raw, t.enc = { s.enc with pixels := Memory.ofBytes 0 raw })) ∨
      (∃ rest, s.pending = .start .encoder :: rest ∧ t.enc = s.enc.start s.cfg) ∨
      (∃ rest, s.pending = .hardwareReset .encoder :: rest ∧ t.enc = s.enc.hardwareReset) ∨
      (s.enc.core.state = .busy ∧ t.dec = s.dec ∧
        ∃ rest who, encoderStep { s with pending := rest, turn := who } = .next t)) := by
  rcases step_eq_cases s with ⟨op, rest, hp, -, he⟩ | ⟨rest, -, hc⟩
  · rw [he] at h
    rcases hostStep_next h with ⟨e, rfl, hh⟩ | ⟨d, rfl, -⟩ | ⟨-, rfl⟩
    · refine ⟨rfl, ?_⟩
      rcases hh with ⟨hb, w, h', -, rfl⟩ | ⟨hb, raw, -, rfl⟩ | ⟨rfl, rfl⟩ | ⟨rfl, rfl⟩
      · exact .inr (.inl ⟨hb, .inl ⟨w, h', rfl⟩⟩)
      · exact .inr (.inl ⟨hb, .inr ⟨raw, rfl⟩⟩)
      · exact .inr (.inr (.inl ⟨rest, hp, rfl⟩))
      · exact .inr (.inr (.inr (.inl ⟨rest, hp, rfl⟩)))
    · exact ⟨rfl, .inl rfl⟩
    · exact ⟨rfl, .inl rfl⟩
  · rcases hc with ⟨-, -, he⟩ | ⟨-, hb, he⟩ | ⟨-, he⟩
    · rw [he] at h
      rcases decoderStep_next h with ⟨-, hd⟩ | ⟨-, i, -, hx⟩ | ⟨-, -, rfl⟩
      · exact ⟨hd.cfg, .inl hd.encoder⟩
      · rcases exec_next hx with ⟨px, hd, -⟩ | ⟨f, -, hd⟩
        · exact ⟨hd.cfg, .inl hd.encoder⟩
        · exact ⟨hd.cfg, .inl hd.encoder⟩
      · exact ⟨rfl, .inl rfl⟩
    · rw [he] at h
      obtain ⟨px, out, rc, colour, -, -, hs⟩ := encoderStep_next h
      exact ⟨hs.cfg, .inr (.inr (.inr (.inr ⟨hb, hs.decoder, _, _, h⟩)))⟩
    · rw [he] at h; cases h
      exact ⟨rfl, .inl rfl⟩

/-- Everything a step can do to the decoder. -/
theorem step_dec {s t : State} (h : step s = .next t) :
    t.dec = s.dec ∨
      (s.dec.core.state ≠ .busy ∧
        ((∃ w h, t.dec = { s.dec with core := s.dec.core.withDimensions w h }) ∨
          ∃ bytes, t.dec = { s.dec with stream := Memory.ofBytes 0 bytes })) ∨
      (∃ rest, s.pending = .start .decoder :: rest ∧ t.dec = s.dec.start s.cfg) ∨
      (∃ rest, s.pending = .hardwareReset .decoder :: rest ∧ t.dec = s.dec.hardwareReset) ∨
      (s.dec.core.state = .busy ∧ t.enc = s.enc ∧
        ∃ rest who, decoderStep { s with pending := rest, turn := who } = .next t) := by
  rcases step_eq_cases s with ⟨op, rest, hp, -, he⟩ | ⟨rest, -, hc⟩
  · rw [he] at h
    rcases hostStep_next h with ⟨e, rfl, -⟩ | ⟨d, rfl, hh⟩ | ⟨-, rfl⟩
    · exact .inl rfl
    · rcases hh with ⟨hb, w, h', -, rfl⟩ | ⟨hb, raw, -, rfl⟩ | ⟨rfl, rfl⟩ | ⟨rfl, rfl⟩
      · exact .inr (.inl ⟨hb, .inl ⟨w, h', rfl⟩⟩)
      · exact .inr (.inl ⟨hb, .inr ⟨raw, rfl⟩⟩)
      · exact .inr (.inr (.inl ⟨rest, hp, rfl⟩))
      · exact .inr (.inr (.inr (.inl ⟨rest, hp, rfl⟩)))
    · exact .inl rfl
  · rcases hc with ⟨-, hb, he⟩ | ⟨-, -, he⟩ | ⟨-, he⟩
    · rw [he] at h
      have hd : t.enc = s.enc := by
        rcases decoderStep_next h with ⟨-, hd⟩ | ⟨-, i, -, hx⟩ | ⟨-, -, rfl⟩
        · exact hd.encoder
        · rcases exec_next hx with ⟨px, hd, -⟩ | ⟨f, -, hd⟩
          · exact hd.encoder
          · exact hd.encoder
        · rfl
      exact .inr (.inr (.inr (.inr ⟨hb, hd, _, _, h⟩)))
    · rw [he] at h
      obtain ⟨px, out, rc, colour, -, -, hs⟩ := encoderStep_next h
      exact .inl hs.decoder
    · rw [he] at h; cases h
      exact .inl rfl

end Sys2Proof.Machine
end

