-- ==== Sys2Proof/Tests/Slice0.lean ====
section
/-! SUPPORT. Tests on the spec's own vectors, and for each obligation with hypotheses a witness that meets them. -/

namespace Sys2Proof.Tests

open Sys2Proof Sys2Proof.Machine

/-! ### Helpers -/

/-- The next state of an outcome, if it is one. -/
def nextOf (o : Host.Outcome State Fault Refusal) : Option State :=
  match o with
  | .next s => some s
  | .fault _ => none
  | .refused _ => none

theorem next_of {o : Host.Outcome State Fault Refusal} (h : (nextOf o).isSome = true) : ∃ t, o = .next t := by
  cases o with
  | next s => exact ⟨s, rfl⟩
  | fault f => simp [nextOf] at h
  | refused r => simp [nextOf] at h

/-- A grey pixel. -/
def grey (v : Byte) : Pixel := ⟨v, v, v⟩

/-- An agent as an accepted start leaves it at power-on, for a `w` by `h` image. -/
def started (w h : BitVec 16) : Agent := { Agent.reset with width := w, height := h, state := .busy }

/-- Only the decoder is BUSY, on the given stream. -/
def decoding (w h : BitVec 16) (bytes : List Byte) : State :=
  { State.reset with dec := { core := started w h, ipos := 0, stream := Memory.ofBytes 0 bytes, pixels := [] } }

/-- Only the encoder is BUSY, on the given raw bytes (blue, green, red of each pixel). -/
def encoding (w h : BitVec 16) (raw : List Byte) : State :=
  { State.reset with enc := { core := started w h, opos := 0, pixels := Memory.ofBytes 0 raw, stream := [] } }

/-- The registers in the second row of V-P19's image: N = 4, column 1. -/
def secondRow : Agent :=
  { started 3 2 with
    n := 4, prev := grey 20,
    p := { pred := grey 20, a := grey 20, col := 1, first := false,
           row := [(0, grey 10), (1, grey 20), (2, grey 30)] } }

/-- The same image one pixel later: N = 5, the last column. -/
def lastColumn : Agent :=
  { started 3 2 with
    n := 5, prev := ⟨22, 18, 25⟩,
    p := { pred := ⟨30, 28, 30⟩, a := ⟨22, 18, 25⟩, col := 2, first := false,
           row := [(0, grey 20), (1, grey 20), (2, grey 30)] } }

/-- A decoder with these registers and this stream. -/
def decoderWith (c : Agent) (bytes : List Byte) : State :=
  { State.reset with dec := { core := c, ipos := 0, stream := Memory.ofBytes 0 bytes, pixels := [] } }

/-- An encoder with these registers whose pixel at index N is `px`. -/
def encoderWith (c : Agent) (px : Pixel) : State :=
  { State.reset with
    enc := { core := c, opos := 0, pixels := Memory.ofBytes (3 * c.n.toNat) [px.b, px.g, px.r], stream := [] } }

/-- A first pixel of a 2x1 image, with this prediction. -/
def predicting (pred : Pixel) : Agent :=
  { started 2 1 with p := { pred := pred, a := .zero, col := 0, first := true, row := [] } }

theorem readable_started (w h : BitVec 16) (hw : 0 < w.toNat) :
    (started w h).p.Readable (started w h).width :=
  ⟨hw, fun _ h => absurd h (Nat.not_succ_le_zero 1), fun _ h => Bool.noConfusion h⟩

theorem readable_predicting (pred : Pixel) : (predicting pred).p.Readable (predicting pred).width :=
  ⟨Nat.succ_pos 1, fun _ h => absurd h (Nat.not_succ_le_zero 1), fun _ h => Bool.noConfusion h⟩

theorem readable_secondRow : secondRow.p.Readable secondRow.width :=
  ⟨by decide, by decide, by decide⟩

theorem readable_lastColumn : lastColumn.p.Readable lastColumn.width :=
  ⟨by decide, by decide, by decide⟩

/-! ### WellFormed smoke test -/

/-- A RUN field of 31 would be the byte 0xFF (R98): refused; it decodes as RGB's leading byte. -/
theorem test_wellFormed_refuses_run31 : (Instr.run 31).wellFormed = false := by decide
theorem test_wellFormed_accepts :
    (Instr.run 30).wellFormed = true ∧ (Instr.run 0).wellFormed = true ∧
    (Instr.rgb 255 255 255).wellFormed = true ∧ (Instr.index 31).wellFormed = true ∧
    (Instr.diff 3 3 3).wellFormed = true ∧ (Instr.diff3 15 31 15).wellFormed = true ∧
    (Instr.luma 63 15 15).wellFormed = true ∧ (Instr.diff2 127 127 127).wellFormed = true := by decide

/-! ### Decoding, words written out from the spec's encodings -/

/-- V-S35: FF 80 80 80. -/
theorem test_decode_rgb : decode [0b11111111, 0b10000000, 0b10000000, 0b10000000] =
    .ok (.rgb 128 128 128, []) := by decide
/-- V-S28: (-64,-64,-64) is C0 02 81. -/
theorem test_decode_diff2 : decode [0b11000000, 0b00000010, 0b10000001] =
    .ok (.diff2 0b1000000 0b1000000 0b1000000, []) := by decide
/-- V-R3: RUN 30 is FD. -/
theorem test_decode_run : decode [0b11111101] = .ok (.run 29, []) := by decide
/-- V-D11: 00 is INDEX 0; the top slot is 1F (R91). -/
theorem test_decode_index : decode [0b00000000] = .ok (.index 0, []) ∧
    decode [0b00011111] = .ok (.index 31, []) := by decide
/-- V-S40: (-8,0,7) is 20 87. -/
theorem test_decode_diff3 : decode [0b00100000, 0b10000111] = .ok (.diff3 0b1000 0 0b0111, []) := by decide
/-- V-S2: (-2,-2,-2) is 6A. -/
theorem test_decode_diff : decode [0b01101010] = .ok (.diff 0b10 0b10 0b10, []) := by decide
/-- V-S18: (31,31,31) is 9F 00. -/
theorem test_decode_luma : decode [0b10011111, 0b00000000] = .ok (.luma 31 0 0, []) := by decide
/-- Too few bytes are rejected by name (V-F7, V-F8, V-F6). -/
theorem test_decode_truncated : decode [0xFF, 0x01, 0x02] = .error (.truncated .rgb) ∧
    decode [0xC0, 0x00] = .error (.truncated .diff2) ∧ decode [] = .error .noLeadingByte := by decide
/-- Trailing bytes are left (V-D12). -/
theorem test_decode_rest : decode [0x55, 0xAA, 0xBB, 0xCC] = .ok (.diff 1 1 1, [0xAA, 0xBB, 0xCC]) := by decide
/-- The table's numbering: byte 0 is bits 7 to 0 (V-S39, C9 04 F4). -/
theorem test_decodeTableWord : decodeTableWord 24 0xF404C9 = some (.diff2 9 1 0b1111010) ∧
    decodeTableWord 8 0xFF = some (.rgb 0 0 0) := by decide

/-! ### One decoder step per opcode -/

/-- What a decoder step is checked on: the output pixel, IPOS, RUNCNT and a cache slot. -/
def seen (slot : BitVec 5) (s : State) : Option (Option Pixel × Nat × BitVec 5 × Pixel) :=
  (nextOf (step s)).map fun t =>
    (t.dec.pixels.readPixel s.dec.core.n.toNat, t.dec.ipos, t.dec.core.runcnt, t.dec.core.slot slot)

/-- V-D5 step 0; hash(250,5,128) = 31 (V-H5). -/
theorem test_exec_rgb : seen 31 (decoderWith (predicting .zero) [0xFF, 0xFA, 0x05, 0x80]) =
    some (some ⟨250, 5, 128⟩, 4, 0, ⟨250, 5, 128⟩) := by decide
/-- V-D5 step 1: red and blue wrap; hash(57,4,127) = 28. -/
theorem test_exec_diff2 : seen 28 (decoderWith (predicting ⟨250, 5, 128⟩) [0xDF, 0xFD, 0xFF]) =
    some (some ⟨57, 4, 127⟩, 3, 0, ⟨57, 4, 127⟩) := by decide
/-- V-D5 step 2: hash(95,35,165) = 7. -/
theorem test_exec_luma : seen 7 (decoderWith (predicting ⟨57, 4, 127⟩) [0x9F, 0x77]) =
    some (some ⟨95, 35, 165⟩, 2, 0, ⟨95, 35, 165⟩) := by decide
/-- V-D5 step 3: hash(102,50,172) = 4. -/
theorem test_exec_diff3 : seen 4 (decoderWith (predicting ⟨95, 35, 165⟩) [0x2F, 0x77]) =
    some (some ⟨102, 50, 172⟩, 2, 0, ⟨102, 50, 172⟩) := by decide
/-- V-D5 step 4: hash(100,48,170) = 30. -/
theorem test_exec_diff : seen 30 (decoderWith (predicting ⟨102, 50, 172⟩) [0x6A]) =
    some (some ⟨100, 48, 170⟩, 1, 0, ⟨100, 48, 170⟩) := by decide
/-- V-D1 step 0: RUN 3 repeats the reset PREV, writes no slot, leaves RUNCNT at 2. -/
theorem test_exec_run : seen 0 (decoding 6 1 [0xE2, 0x55, 0xFE]) =
    some (some .zero, 1, 2, .zero) := by decide
/-- V-D3 step 1: INDEX of slot 5, never written, gives (0,0,0), which then takes slot 0 from (32,0,0). -/
theorem test_exec_index :
    seen 0 (decoderWith ((predicting ⟨32, 0, 0⟩).remember ⟨32, 0, 0⟩) [0x05]) =
      some (some .zero, 1, 0, .zero) := by decide
/-- A run continuation reads no byte and counts down (V-D1 step 1). -/
theorem test_run_continuation : seen 0 (decoderWith { started 6 1 with runcnt := 2 } []) =
    some (some .zero, 0, 1, .zero) := by decide
/-- A word of the table, placed where the next step fetches it, is what that step runs (V-D6). -/
theorem test_withFetchWord :
    (nextOf (step (State.reset.withFetchWord 24 0x01B8CA))).map
      (fun t => (t.dec.core.prev, t.dec.ipos, t.dec.core.n)) = some (⟨10, 238, 0⟩, 3, 1) := by decide
/-- V-F11 step 2: a missing byte abandons the step, IPOS stays. -/
theorem test_underrun :
    (nextOf (step (decoderWith (predicting .zero) [0x2F]))).map
      (fun t => (t.dec.core.state, t.dec.core.cause, t.dec.ipos, t.dec.core.n)) =
      some (.fault, .streamUnderrun, 0, 0) := by decide

/-- R266, R298: a byte written before a FAULT stays unspecified to the host after FAULT is left. -/
theorem test_output_after_fault :
    let d : Decoder := { core := started 2 1, ipos := 1, stream := [(0, 0x55)], pixels := [(0, 1)] }
    (d.raise .streamUnderrun).hardwareReset.outputByte 0 = Config.freeOutputByte 0 0 := rfl

/-! ### One encoder step per opcode -/

/-- What an encoder step is checked on: the bytes emitted. -/
def emitted (s : State) : Option (List Byte) :=
  (nextOf (step s)).bind fun t => t.enc.stream.readBytes 0 t.enc.opos

/-- V-S1. -/
theorem test_encode_diff : emitted (encoderWith (predicting .zero) (grey 1)) = some [0x55] := by decide
/-- V-S11: all three at the lowest value DIFF3 holds. -/
theorem test_encode_diff3 :
    emitted (encoderWith (predicting .zero) ⟨248, 240, 248⟩) = some [0x30, 0x88] := by decide
/-- V-S20: both secondary deltas at their extremes. -/
theorem test_encode_luma :
    emitted (encoderWith (predicting .zero) ⟨216, 224, 231⟩) = some [0xA0, 0x87] := by decide
/-- V-S43: prediction (250,5,128). -/
theorem test_encode_diff2 :
    emitted (encoderWith (predicting ⟨250, 5, 128⟩) ⟨57, 4, 127⟩) = some [0xDF, 0xFD, 0xFF] := by decide
/-- V-S30: one beyond DIFF2. -/
theorem test_encode_rgb :
    emitted (encoderWith (predicting .zero) ⟨191, 0, 0⟩) = some [0xFF, 0xBF, 0x00, 0x00] := by decide
/-- V-E4 pixel 3: (20,20,20) stands in slot 28. -/
theorem test_encode_index :
    emitted (encoderWith ((predicting (grey 10)).remember (grey 20)) (grey 20)) = some [0x1C] := by decide
/-- V-R9: a run that is also the last pixel is flushed at once. -/
theorem test_encode_run : emitted (encoderWith (started 1 1) .zero) = some [0xE0] := by decide

/-! ### MED, advance, start -/

/-- V-P2, V-P4, V-P8, V-P10. -/
theorem test_med : med 10 20 20 = 10 ∧ med 10 20 10 = 20 ∧ med 200 100 150 = 150 ∧ med 0 255 0 = 255 := by
  decide
/-- V-P19: from (22,18,25) at column 1 of the second row the next prediction is (30,28,30). -/
theorem test_advance : (advance 3 ⟨22, 18, 25⟩ secondRow.p).toOption.map (fun p => p.pred) =
    some ⟨30, 28, 30⟩ := by decide
/-- V-H2, V-H3, V-H5. -/
theorem test_hash : Machine.hash (grey 255) = 29 ∧ Machine.hash (grey 100) = 12 ∧
    Machine.hash ⟨250, 5, 128⟩ = 31 := by decide
/-- V-F4, V-F3 and V-F5: zero height is tested before the line buffer; 1025 is too wide; 1024 is not. -/
theorem test_start :
    ({ Agent.reset with width := 1025, height := 0 } : Agent).startVerdict ⟨1024⟩ = .refused .badDimensions ∧
    ({ Agent.reset with width := 1025, height := 1 } : Agent).startVerdict ⟨1024⟩ = .refused .initFailure ∧
    ({ Agent.reset with width := 1024, height := 65535 } : Agent).startVerdict ⟨1024⟩ = .accepted := by
  decide

/-! ### Witnesses: the encoding -/

theorem witness_DecodeOfEncode : (Instr.run 30).wellFormed = true ∧ (Instr.diff2 64 64 64).wellFormed = true := by
  decide
theorem witness_EncodeOfDecode : decode [0xC0, 0xBC, 0x01, 0x55] = .ok (.diff2 0 0b1101111 0, [0x55]) := by
  decide
/-- Both ends of each range of R91. -/
theorem witness_LeadingBytePartition :
    classify 0x00 = .index ∧ classify 0x1F = .index ∧ classify 0x20 = .diff3 ∧ classify 0x3F = .diff3 ∧
    classify 0x40 = .diff ∧ classify 0x7F = .diff ∧ classify 0x80 = .luma ∧ classify 0xBF = .luma ∧
    classify 0xC0 = .diff2 ∧ classify 0xDF = .diff2 ∧ classify 0xE0 = .run ∧ classify 0xFE = .run ∧
    classify 0xFF = .rgb := by decide
theorem witness_EveryByteIsLegal : (Instr.run 30).wellFormed = true ∧ encode (.run 30) = [0xFE] := by decide
theorem witness_OpcodeFormats : (30 : BitVec 5).toNat ≤ 30 ∧ (0 : BitVec 5).toNat ≤ 30 := by decide

/-! ### Witnesses: arithmetic and prediction -/

/-- The sign bit set and clear, at the ends of the 7-bit range. -/
theorem witness_SignExtension : (0b1000000 : BitVec 7).msb = true ∧ (0b0111111 : BitVec 7).msb = false ∧
    (0b10 : BitVec 2).msb = true ∧ (0b01 : BitVec 2).msb = false := by decide
/-- The ends of the ranges (R169): they fit, one beyond does not. -/
theorem witness_FitTest :
    inRange 2 1 ∧ inRange 2 254 ∧ ¬inRange 2 2 ∧ ¬inRange 2 253 ∧ inRange 7 63 ∧ inRange 7 192 ∧
    ¬inRange 7 64 ∧ ¬inRange 7 191 := by unfold inRange; decide
/-- The three branches, with the ties of the first two (V-P2, V-P4, V-P5). -/
theorem witness_MedianEdgeDetector :
    max (10 : Byte).toNat (20 : Byte).toNat ≤ (20 : Byte).toNat ∧
    ((10 : Byte).toNat < max (10 : Byte).toNat (20 : Byte).toNat ∧
      (10 : Byte).toNat ≤ min (10 : Byte).toNat (20 : Byte).toNat) ∧
    (min (10 : Byte).toNat (20 : Byte).toNat < (15 : Byte).toNat ∧
      (15 : Byte).toNat < max (10 : Byte).toNat (20 : Byte).toNat) := by decide
/-- V-S20: all three LUMA fields at an extreme. -/
theorem witness_LumaRebuildsDeltas :
    (∃ f g h, selectOpcode ⟨216, 224, 231⟩ .zero = .luma f g h) ∧
    fits 6 224 = true ∧ fits 4 (216 - 224) = true ∧ fits 4 (231 - 224) = true :=
  ⟨⟨32, 8, 7, by decide⟩, by decide⟩
/-- Each case of the state machine: width 1; the first row; the second row; the last column. -/
theorem witness_AdvanceStateMachine :
    (Predictor.reset).Readable 1 ∧ (Predictor.reset).Readable 3 ∧ secondRow.p.Readable 3 ∧
    lastColumn.p.Readable 3 :=
  ⟨⟨by decide, by decide, by decide⟩, ⟨by decide, by decide, by decide⟩, readable_secondRow,
    readable_lastColumn⟩
theorem witness_PredictionByFourCases : (0 : Nat) < (1 : BitVec 16).toNat ∧ (2 : Nat) < (3 : BitVec 16).toNat := by
  decide

/-! ### Witnesses: the seven opcodes -/

/-- A decoder in the middle of an image that has read its opcode's bytes: what the statements of the six
colour opcodes ask. -/
def midImage : State := decoderWith secondRow []

theorem witness_RgbResult : midImage.dec.core.p.Readable midImage.dec.core.width := readable_secondRow
theorem witness_Diff2Result : midImage.dec.core.p.Readable midImage.dec.core.width := readable_secondRow
theorem witness_Diff3Result : midImage.dec.core.p.Readable midImage.dec.core.width := readable_secondRow
theorem witness_DiffResult : midImage.dec.core.p.Readable midImage.dec.core.width := readable_secondRow
theorem witness_LumaResult : midImage.dec.core.p.Readable midImage.dec.core.width := readable_secondRow
theorem witness_IndexResult : midImage.dec.core.p.Readable midImage.dec.core.width := readable_secondRow
theorem witness_RunResult : (30 : BitVec 5).toNat ≤ 30 ∧ (0 : BitVec 5).toNat ≤ 30 ∧
    (decoderWith secondRow []).dec.core.p.Readable (decoderWith secondRow []).dec.core.width :=
  ⟨by decide, by decide, readable_secondRow⟩

/-- The second row with a run in flight, `rc` repeats to come. -/
def inRun (rc : BitVec 5) : State := decoderWith { secondRow with runcnt := rc } []

theorem readable_inRun (rc : BitVec 5) : (inRun rc).dec.core.p.Readable (inRun rc).dec.core.width :=
  readable_secondRow

theorem witness_EveryOpcodeRetires :
    (Instr.run 30).wellFormed = true ∧
    (inRun 0).dec.core.p.Readable (inRun 0).dec.core.width ∧
    0 < (inRun 1).dec.core.runcnt.toNat ∧ (inRun 1).dec.core.p.Readable (inRun 1).dec.core.width :=
  ⟨by decide, readable_inRun 0, by decide, readable_inRun 1⟩
theorem witness_RunContinuationStep :
    0 < (inRun 30).dec.core.runcnt.toNat ∧ 0 < (inRun 1).dec.core.runcnt.toNat ∧
    (inRun 30).dec.core.p.Readable (inRun 30).dec.core.width :=
  ⟨by decide, by decide, readable_inRun 30⟩

/-! ### Witnesses: the step -/

/-- Each clause: the decoder to move, the encoder to move, nobody to move, and a step under `pass`. -/
theorem witness_StepRunsDecoded :
    ((decoding 2 1 [0x55]).pending = [] ∧ (decoding 2 1 [0x55]).mover = some .decoder ∧
      (decoding 2 1 [0x55]).dec.core.runcnt = 0 ∧ decode [0x55] = .ok (.diff 1 1 1, []) ∧
      (decoding 2 1 [0x55]).dec.stream.readBytes (decoding 2 1 [0x55]).dec.ipos [(0x55 : Byte)].length =
        some [0x55]) ∧
    ((encoding 1 1 [1, 2, 3]).pending = [] ∧ (encoding 1 1 [1, 2, 3]).mover = some .encoder) ∧
    (State.reset.pending = [] ∧ State.reset.mover = none) ∧
    (∃ t, step { decoding 2 1 [0x55] with pending := [] } = .next t) :=
  ⟨by decide, by decide, by decide, next_of (by decide)⟩
theorem witness_MoverIsBusy :
    (decoding 1 1 []).mover = some .decoder ∧ (encoding 1 1 []).mover = some .encoder ∧
    State.reset.mover = none := by decide
/-- No byte at all (V-F6), and an RGB without its last byte (V-F7). -/
theorem witness_UnderrunAbandonsStep :
    ((decoding 1 1 []).pending = [] ∧ (decoding 1 1 []).mover = some .decoder ∧
      (decoding 1 1 []).dec.core.runcnt = 0 ∧ Cells.read (decoding 1 1 []).dec.stream 0 = none) ∧
    ((decoding 2 1 [0xFF, 1, 2]).pending = [] ∧ (decoding 2 1 [0xFF, 1, 2]).mover = some .decoder ∧
      (decoding 2 1 [0xFF, 1, 2]).dec.core.runcnt = 0 ∧
      Cells.read (decoding 2 1 [0xFF, 1, 2]).dec.stream 0 = some 0xFF ∧ 3 < (classify 0xFF).length ∧
      Cells.read (decoding 2 1 [0xFF, 1, 2]).dec.stream 3 = none) := by decide
/-- V-D12: the same opcode with and without trailing bytes. -/
theorem witness_StepReadsOnlyItsOpcode :
    (decoding 1 1 [0x55]).pending = [] ∧ (decoding 1 1 [0x55]).mover = some .decoder ∧
    Cells.read (decoding 1 1 [0x55]).dec.stream 0 = some 0x55 ∧
    (∀ j, j < (classify 0x55).length →
      Cells.read (Memory.ofBytes 0 [0x55, 0xAA]) j = Cells.read (decoding 1 1 [0x55]).dec.stream j) ∧
    ∃ t, step (decoding 1 1 [0x55]) = .next t :=
  ⟨by decide, by decide, by decide, by decide, next_of (by decide)⟩
theorem witness_CursorMovesForward :
    (decoding 1 1 [0x55]).pending = [] ∧ ∃ t, step (decoding 1 1 [0x55]) = .next t :=
  ⟨by decide, next_of (by decide)⟩

/-! ### Witnesses: the encoder -/

/-- The second row of V-P19's image with `rc` pixels counted, the next pixel being `px`. -/
def counting (rc : BitVec 5) (px : Pixel) : State := encoderWith { secondRow with runcnt := rc } px

/-- The pixel is there and the row entries it needs are. -/
theorem ready_counting_run (rc : BitVec 5) :
    (counting rc (grey 20)).enc.pixels.readPixel (counting rc (grey 20)).enc.core.n.toNat = some (grey 20) ∧
    grey 20 = (counting rc (grey 20)).enc.core.prev ∧
    (counting rc (grey 20)).enc.core.p.Readable (counting rc (grey 20)).enc.core.width :=
  ⟨(by decide : (Memory.ofBytes 12 [20, 20, 20]).readPixel 4 = some (grey 20)), rfl, readable_secondRow⟩

theorem witness_EncoderCountsRun :
    (counting 29 (grey 20)).enc.pixels.readPixel (counting 29 (grey 20)).enc.core.n.toNat = some (grey 20) ∧
    grey 20 = (counting 29 (grey 20)).enc.core.prev ∧
    (counting 29 (grey 20)).enc.core.p.Readable (counting 29 (grey 20)).enc.core.width ∧
    (counting 29 (grey 20)).enc.core.runcnt.toNat < 30 ∧
    (counting 29 (grey 20)).enc.core.n.toNat + 1 ≠
      (counting 29 (grey 20)).enc.core.width.toNat * (counting 29 (grey 20)).enc.core.height.toNat :=
  ⟨(ready_counting_run 29).1, (ready_counting_run 29).2.1, (ready_counting_run 29).2.2, by decide, by decide⟩

/-- The last pixel of the image, equal to PREV. -/
def atLast : State := encoderWith lastColumn ⟨22, 18, 25⟩

/-- Both ways a run is flushed: the count reaches 31; the last pixel of the image. -/
theorem witness_EncoderFlushesRun :
    ((counting 30 (grey 20)).enc.pixels.readPixel (counting 30 (grey 20)).enc.core.n.toNat = some (grey 20) ∧
      grey 20 = (counting 30 (grey 20)).enc.core.prev ∧
      (counting 30 (grey 20)).enc.core.p.Readable (counting 30 (grey 20)).enc.core.width ∧
      (counting 30 (grey 20)).enc.core.runcnt.toNat = 30) ∧
    (atLast.enc.pixels.readPixel atLast.enc.core.n.toNat = some ⟨22, 18, 25⟩ ∧
      ⟨22, 18, 25⟩ = atLast.enc.core.prev ∧ atLast.enc.core.p.Readable atLast.enc.core.width ∧
      atLast.enc.core.runcnt.toNat ≤ 30 ∧
      atLast.enc.core.n.toNat + 1 = atLast.enc.core.width.toNat * atLast.enc.core.height.toNat) :=
  ⟨⟨(ready_counting_run 30).1, (ready_counting_run 30).2.1, (ready_counting_run 30).2.2, by decide⟩,
    by decide, by decide, readable_lastColumn, by decide, by decide⟩

/-- The first pixel of a 2x1 image, prediction (0,0,0), PREV (0,0,0), a run of `rc` pending. -/
def firstPixel (rc : BitVec 5) (px : Pixel) : State := encoderWith { predicting .zero with runcnt := rc } px

theorem readable_firstPixel (rc : BitVec 5) (px : Pixel) :
    (firstPixel rc px).enc.core.p.Readable (firstPixel rc px).enc.core.width := readable_predicting _

/-- (20,20,20) stands in its slot and PREV is another pixel (V-E4 pixel 3). -/
def hit : State := encoderWith ((predicting (grey 10)).remember (grey 20)) (grey 20)

theorem witness_EncoderEmitsIndex :
    hit.enc.pixels.readPixel hit.enc.core.n.toNat = some (grey 20) ∧ grey 20 ≠ hit.enc.core.prev ∧
    hit.enc.core.slot (Machine.hash (grey 20)) = grey 20 ∧ hit.enc.core.p.Readable hit.enc.core.width :=
  ⟨by decide, by decide, by decide, readable_predicting _⟩

/-- What the five delta statements ask of the state, met by `px` at the first pixel. -/
def Fresh (rc : BitVec 5) (px : Pixel) : Prop :=
  (firstPixel rc px).enc.pixels.readPixel (firstPixel rc px).enc.core.n.toNat = some px ∧
  px ≠ (firstPixel rc px).enc.core.prev ∧ (firstPixel rc px).enc.core.slot (Machine.hash px) ≠ px ∧
  (firstPixel rc px).enc.core.p.Readable (firstPixel rc px).enc.core.width

/-- V-S1 and V-S2, the second after a run. -/
theorem witness_EncoderEmitsDiff : Fresh 0 (grey 1) ∧ Fresh 30 (grey 254) ∧ inRange 2 (1 - 0) ∧
    inRange 2 (254 - 0) :=
  ⟨⟨by decide, by decide, by decide, readable_firstPixel _ _⟩,
    ⟨by decide, by decide, by decide, readable_firstPixel _ _⟩, by unfold inRange; decide,
    by unfold inRange; decide⟩
/-- V-S11: (-8,-16,-8). -/
theorem witness_EncoderEmitsDiff3 : Fresh 0 ⟨248, 240, 248⟩ ∧
    ¬(inRange 2 (248 - 0) ∧ inRange 2 (240 - 0) ∧ inRange 2 (248 - 0)) ∧
    inRange 4 (248 - 0) ∧ inRange 4 (248 - 0) ∧ inRange 5 (240 - 0) :=
  ⟨⟨by decide, by decide, by decide, readable_firstPixel _ _⟩, by unfold inRange; decide⟩
/-- V-S20: (-40,-32,-25). -/
theorem witness_EncoderEmitsLuma : Fresh 0 ⟨216, 224, 231⟩ ∧
    ¬(inRange 2 (216 - 0) ∧ inRange 2 (224 - 0) ∧ inRange 2 (231 - 0)) ∧
    ¬(inRange 4 (216 - 0) ∧ inRange 4 (231 - 0) ∧ inRange 5 (224 - 0)) ∧
    inRange 4 ((216 - 0) - (224 - 0)) ∧ inRange 4 ((231 - 0) - (224 - 0)) ∧ inRange 6 (224 - 0) :=
  ⟨⟨by decide, by decide, by decide, readable_firstPixel _ _⟩, by unfold inRange; decide⟩
/-- V-S28: (-64,-64,-64). -/
theorem witness_EncoderEmitsDiff2 : Fresh 0 (grey 192) ∧
    ¬(inRange 2 (192 - 0) ∧ inRange 2 (192 - 0) ∧ inRange 2 (192 - 0)) ∧
    ¬(inRange 4 (192 - 0) ∧ inRange 4 (192 - 0) ∧ inRange 5 (192 - 0)) ∧
    ¬(inRange 4 ((192 - 0) - (192 - 0)) ∧ inRange 4 ((192 - 0) - (192 - 0)) ∧ inRange 6 (192 - 0)) ∧
    inRange 7 (192 - 0) :=
  ⟨⟨by decide, by decide, by decide, readable_firstPixel _ _⟩, by unfold inRange; decide⟩
/-- V-S30: (-65,0,0). -/
theorem witness_EncoderEmitsRgb : Fresh 0 ⟨191, 0, 0⟩ ∧
    ¬(inRange 7 (191 - 0) ∧ inRange 7 (0 - 0) ∧ inRange 7 (0 - 0)) :=
  ⟨⟨by decide, by decide, by decide, readable_firstPixel _ _⟩, by unfold inRange; decide⟩
/-- A run pixel and another. -/
theorem witness_EncoderStepShape :
    ((counting 30 (grey 20)).enc.pixels.readPixel (counting 30 (grey 20)).enc.core.n.toNat = some (grey 20) ∧
      grey 20 = (counting 30 (grey 20)).enc.core.prev ∧
      (counting 30 (grey 20)).enc.core.p.Readable (counting 30 (grey 20)).enc.core.width) ∧
    Fresh 30 (grey 254) :=
  ⟨ready_counting_run 30, by decide, by decide, by decide, readable_firstPixel _ _⟩
/-- The ends of DIFF's, DIFF3's and LUMA's ranges; and, for what the encoder selects, V-S2, V-S11, V-S20, V-S12
and V-S30. -/
theorem witness_ChainConditionsNest :
    (fits 2 1 = true ∧ fits 2 254 = true) ∧ (fits 4 248 = true ∧ fits 5 240 = true) ∧
    (fits 4 (216 - 224) = true ∧ fits 4 (231 - 224) = true ∧ fits 6 224 = true) ∧
    (selectOpcode (grey 254) .zero).opcode = .diff ∧ (selectOpcode ⟨248, 240, 248⟩ .zero).opcode = .diff3 ∧
    (selectOpcode ⟨216, 224, 231⟩ .zero).opcode = .luma ∧ (selectOpcode ⟨8, 0, 0⟩ .zero).opcode = .diff2 ∧
    (selectOpcode ⟨191, 0, 0⟩ .zero).opcode = .rgb := by decide

/-- Encoder and decoder in lock step at the first pixel of a 2x1 image. -/
def paired : State :=
  { State.reset with
    enc := { core := predicting .zero, opos := 0, pixels := [], stream := [] }
    dec := { core := predicting .zero, ipos := 0, stream := [], pixels := [] } }

theorem witness_ColourPixelKeepsLockStep :
    LockStep paired.enc.core paired.dec.core ∧ paired.dec.core.p.Readable paired.dec.core.width ∧
    grey 1 ≠ paired.enc.core.prev ∧
    Instr.diff 1 1 1 =
      (if paired.enc.core.slot (Machine.hash (grey 1)) = grey 1 then Instr.index (Machine.hash (grey 1))
       else selectOpcode (subPixel (grey 1) paired.enc.core.p.pred) (grey 1)) :=
  ⟨⟨rfl, rfl, rfl, rfl, rfl, rfl⟩, readable_predicting _, by decide, by decide⟩

/-! ### Witnesses: the host -/

/-- Both agents idle with these dimensions and MAX_WIDTH 1024, one host operation asked. -/
def asking (w h : BitVec 16) (op : HostOp) : State :=
  { State.reset with
    cfg := ⟨1024⟩
    enc := { State.reset.enc with core := { Agent.reset with width := w, height := h } }
    dec := { State.reset.dec with core := { Agent.reset with width := w, height := h } }
    pending := [op] }

/-- Both agents BUSY, one host operation asked. -/
def askingBusy (op : HostOp) : State :=
  { State.reset with
    enc := { State.reset.enc with core := started 1 1 }
    dec := { State.reset.dec with core := started 1 1 }
    pending := [op] }

/-- V-F5: the widest and highest image a line buffer of 1024 accepts. -/
theorem witness_StartAccepted :
    ((asking 1024 65535 (.start .decoder)).pending = [.start .decoder] ∧
      (asking 1024 65535 (.start .decoder)).dec.core.state ≠ .busy) ∧
    ((asking 1024 65535 (.start .encoder)).pending = [.start .encoder] ∧
      (asking 1024 65535 (.start .encoder)).enc.core.state ≠ .busy) ∧
    0 < (1024 : BitVec 16).toNat ∧ 0 < (65535 : BitVec 16).toNat ∧
    (1024 : BitVec 16).toNat ≤ (asking 1024 65535 (.start .decoder)).cfg.maxWidth.toNat := by decide
/-- V-F1, V-F2, V-F3. -/
theorem witness_StartRefused :
    (asking 0 5 (.start .decoder)).dec.core.width = 0 ∧ (asking 5 0 (.start .encoder)).enc.core.height = 0 ∧
    (asking 1025 1 (.start .decoder)).cfg.maxWidth.toNat <
      (asking 1025 1 (.start .decoder)).dec.core.width.toNat ∧
    (asking 0 5 (.start .decoder)).dec.core.state ≠ .busy ∧
    (asking 5 0 (.start .encoder)).enc.core.state ≠ .busy ∧
    (asking 5 0 (.start .encoder)).pending = [.start .encoder] ∧
    (asking 0 5 (.start .decoder)).pending = [.start .decoder] := by decide
theorem witness_BusyAgentIsLeftAlone :
    (askingBusy (.start .decoder)).dec.core.state = .busy ∧
    (askingBusy (.start .encoder)).enc.core.state = .busy ∧
    (askingBusy (.writeDimensions .decoder 1 1)).pending = [.writeDimensions .decoder 1 1] ∧
    (askingBusy (.writeDimensions .encoder 1 1)).pending = [.writeDimensions .encoder 1 1] ∧
    (askingBusy (.supplyStream [1])).pending = [.supplyStream [1]] ∧
    (askingBusy (.supplyPixels [1])).pending = [.supplyPixels [1]] := by decide
theorem witness_HostWrites :
    (asking 0 0 (.writeDimensions .decoder 65535 65535)).dec.core.state ≠ .busy ∧
    (asking 0 0 (.writeDimensions .decoder 65535 65535)).pending = [.writeDimensions .decoder 65535 65535] ∧
    (asking 0 0 (.writeDimensions .encoder 0 0)).enc.core.state ≠ .busy ∧
    (asking 0 0 (.supplyStream [])).pending = [.supplyStream []] ∧
    (asking 0 0 (.supplyPixels [1, 2, 3])).pending = [.supplyPixels [1, 2, 3]] := by decide
theorem witness_ResetValues :
    (askingBusy (.hardwareReset .decoder)).pending = [.hardwareReset .decoder] ∧
    (askingBusy (.hardwareReset .encoder)).pending = [.hardwareReset .encoder] := by decide
/-- Each cause; an encoder that is DONE with one byte; the largest length the port can show. -/
theorem witness_HostReads :
    (((started 1 1).raise .badDimensions).state = .fault ∧
      ((started 1 1).raise .badDimensions).cause = .badDimensions) ∧
    ((started 1 1).raise .initFailure).cause = .initFailure ∧
    ((started 1 1).raise .streamUnderrun).cause = .streamUnderrun ∧
    (({ core := { started 1 1 with state := .done }, opos := 1, pixels := [], stream := [(0, 0xE0)] } :
      Encoder).core.state = .done) ∧
    (({ core := started 1 1, opos := 4294967295, pixels := [], stream := [] } : Encoder).opos < 2 ^ 32) := by
  decide

/-! ### Witnesses: the invariants -/

theorem counting_started (w h : BitVec 16) (hw : 0 < w.toNat) (hh : 0 < h.toNat) :
    (started w h).Counting .default :=
  ⟨hw, hh, Nat.lt_succ_iff.mp w.isLt, Nat.mul_pos hw hh, (Nat.zero_mod _).symm, (decide_eq_true hw).symm,
    Nat.zero_le _⟩

theorem history_started (w h : BitVec 16) (px : Nat → Pixel) (hw : 0 < w.toNat) :
    (started w h).History px := by
  refine ⟨fun _ => rfl, fun h => absurd h (Nat.lt_irrefl 0), fun h => absurd h (Nat.lt_irrefl 0), rfl,
    fun j hj => ?_, fun j _ _ hn => absurd hn (Nat.not_le.mpr hw), fun _ _ _ => rfl⟩
  have : (started w h).n.toNat % (started w h).width.toNat = 0 := Nat.zero_mod _
  omega

theorem hashed_started (w h : BitVec 16) : (started w h).CacheHashed := fun i =>
  .inl (by simp [Agent.slot, started, Agent.reset])

/-- The decoder BUSY at the first pixel. -/
theorem sound_decoding (w h : BitVec 16) (bytes : List Byte) (hw : 0 < w.toNat) (hh : 0 < h.toNat) :
    (decoding w h bytes).Sound where
  canonical := ⟨.nil, .nil, Memory.wf_ofBytes _ _, .nil, .nil, .nil⟩
  counting := ⟨fun e => (nomatch e), fun _ => ⟨counting_started w h hw hh, Nat.le_refl 0⟩⟩
  hashed := ⟨fun e => (nomatch e), fun _ => hashed_started w h⟩
  history := ⟨fun e => (nomatch e),
    fun _ => ⟨history_started w h _ hw, fun k hk => absurd hk (Nat.not_lt_zero k)⟩⟩

/-- The encoder BUSY at the first pixel. -/
theorem sound_encoding (w h : BitVec 16) (raw : List Byte) (hw : 0 < w.toNat) (hh : 0 < h.toNat) :
    (encoding w h raw).Sound where
  canonical := ⟨Memory.wf_ofBytes _ _, .nil, .nil, .nil, .nil, .nil⟩
  counting := ⟨fun _ => ⟨counting_started w h hw hh, Nat.le_refl 0, Nat.le_refl 0, fun _ => rfl⟩,
    fun e => (nomatch e)⟩
  hashed := ⟨fun _ => hashed_started w h, fun e => (nomatch e)⟩
  history := ⟨fun _ => ⟨history_started w h _ hw, fun k hk => absurd hk (Nat.not_lt_zero k)⟩,
    fun e => (nomatch e)⟩

/-- A sound state of each agent's kind, and a step from it. -/
theorem sound_steps :
    ((decoding 2 1 [0x55]).Sound ∧ ∃ t, step (decoding 2 1 [0x55]) = .next t) ∧
    ((encoding 2 1 [1, 2, 3]).Sound ∧ ∃ t, step (encoding 2 1 [1, 2, 3]) = .next t) :=
  ⟨⟨sound_decoding 2 1 _ (by decide) (by decide), next_of (by decide)⟩,
    ⟨sound_encoding 2 1 _ (by decide) (by decide), next_of (by decide)⟩⟩
theorem witness_StepKeepsCanonical :
    ((decoding 2 1 [0x55]).Canonical ∧ ∃ t, step (decoding 2 1 [0x55]) = .next t) ∧
    ((encoding 2 1 [1, 2, 3]).Canonical ∧ ∃ t, step (encoding 2 1 [1, 2, 3]) = .next t) :=
  ⟨⟨sound_steps.1.1.canonical, sound_steps.1.2⟩, ⟨sound_steps.2.1.canonical, sound_steps.2.2⟩⟩
theorem witness_StepKeepsCounting :
    ((decoding 2 1 [0x55]).Counting ∧ ∃ t, step (decoding 2 1 [0x55]) = .next t) ∧
    ((encoding 2 1 [1, 2, 3]).Counting ∧ ∃ t, step (encoding 2 1 [1, 2, 3]) = .next t) :=
  ⟨⟨sound_steps.1.1.counting, sound_steps.1.2⟩, ⟨sound_steps.2.1.counting, sound_steps.2.2⟩⟩
theorem witness_StepKeepsCacheHashed :
    ((decoding 2 1 [0x55]).CacheHashed ∧ ∃ t, step (decoding 2 1 [0x55]) = .next t) ∧
    ((encoding 2 1 [1, 2, 3]).CacheHashed ∧ ∃ t, step (encoding 2 1 [1, 2, 3]) = .next t) :=
  ⟨⟨sound_steps.1.1.hashed, sound_steps.1.2⟩, ⟨sound_steps.2.1.hashed, sound_steps.2.2⟩⟩
theorem witness_StepKeepsHistory :
    ((decoding 2 1 [0x55]).Counting ∧ (decoding 2 1 [0x55]).History ∧
      ∃ t, step (decoding 2 1 [0x55]) = .next t) ∧
    ((encoding 2 1 [1, 2, 3]).Counting ∧ (encoding 2 1 [1, 2, 3]).History ∧
      ∃ t, step (encoding 2 1 [1, 2, 3]) = .next t) :=
  ⟨⟨sound_steps.1.1.counting, sound_steps.1.1.history, sound_steps.1.2⟩,
    ⟨sound_steps.2.1.counting, sound_steps.2.1.history, sound_steps.2.2⟩⟩
theorem witness_BusyAgentCanAdvance :
    ((decoding 2 1 [0x55]).Counting ∧ (decoding 2 1 [0x55]).History ∧
      (decoding 2 1 [0x55]).dec.core.state = .busy) ∧
    ((encoding 2 1 [1, 2, 3]).Counting ∧ (encoding 2 1 [1, 2, 3]).History ∧
      (encoding 2 1 [1, 2, 3]).enc.core.state = .busy) :=
  ⟨⟨sound_steps.1.1.counting, sound_steps.1.1.history, by decide⟩,
    ⟨sound_steps.2.1.counting, sound_steps.2.1.history, by decide⟩⟩
theorem witness_SoundStateNeverFaults :
    (encoding 1 1 [1, 2, 3]).Sound ∧ (encoding 1 1 [1, 2, 3]).enc.InputReady :=
  ⟨sound_encoding 1 1 _ (by decide) (by decide), fun _ => by decide⟩

/-- An agent of each kind in FAULT, about to be started again on a 1x1 image. -/
def restarting (who : AgentId) : State :=
  { State.reset with
    enc := { State.reset.enc with core := (started 1 1).raise .initFailure }
    dec := { State.reset.dec with core := (started 1 1).raise .streamUnderrun }
    pending := [.start who] }

theorem witness_FaultLeftOnlyByHost :
    ((∃ t, step (restarting .decoder) = .next t) ∧ (restarting .decoder).dec.core.state = .fault ∧
      (nextOf (step (restarting .decoder))).map (fun t => t.dec.core.state) = some .busy) ∧
    ((∃ t, step (restarting .encoder) = .next t) ∧ (restarting .encoder).enc.core.state = .fault ∧
      (nextOf (step (restarting .encoder))).map (fun t => t.enc.core.state) = some .busy) :=
  ⟨⟨next_of (by decide), by decide, by decide⟩, ⟨next_of (by decide), by decide, by decide⟩⟩
theorem witness_AgentsShareNothing :
    ((∃ t, step (decoding 1 1 [0x55]) = .next t) ∧ (decoding 1 1 [0x55]).pending = [] ∧
      (decoding 1 1 [0x55]).mover = some .decoder) ∧
    ((∃ t, step (encoding 1 1 [1, 2, 3]) = .next t) ∧ (encoding 1 1 [1, 2, 3]).pending = [] ∧
      (encoding 1 1 [1, 2, 3]).mover = some .encoder) :=
  ⟨⟨next_of (by decide), by decide, by decide⟩, ⟨next_of (by decide), by decide, by decide⟩⟩
/-- An encoder that is BUSY, one that is not, and a decoder that is BUSY. -/
def busyEncoder : Encoder := (encoding 1 1 [1, 2, 3]).enc
def idleEncoder : Encoder := State.reset.enc
def busyDecoder : Decoder := (decoding 1 1 [0x55]).dec

/-- The encoder BUSY, on its own turn. -/
def encodersTurn : State := { encoding 1 1 [1, 2, 3] with turn := .encoder }

/-- Each clause, with the other agent BUSY on the mover's own turn, and with it not BUSY. -/
theorem witness_AgentsIgnoreEachOther :
    ((decoding 1 1 [0x55]).pending = [] ∧ (decoding 1 1 [0x55]).mover = some .decoder ∧
      (decoding 1 1 [0x55]).turn = .decoder ∧ busyEncoder.core.state = .busy ∧
      idleEncoder.core.state ≠ .busy ∧ ∃ t, step (decoding 1 1 [0x55]) = .next t) ∧
    (encodersTurn.pending = [] ∧ encodersTurn.mover = some .encoder ∧ encodersTurn.turn = .encoder ∧
      busyDecoder.core.state = .busy ∧ State.reset.dec.core.state ≠ .busy ∧
      ∃ t, step encodersTurn = .next t) :=
  ⟨⟨by decide, by decide, by decide, by decide, by decide, next_of (by decide)⟩,
    ⟨by decide, by decide, by decide, by decide, by decide, next_of (by decide)⟩⟩
/-- The 1x1 image, and for the second clause a stream of 4 bytes for its one pixel (V-F13). -/
theorem witness_DecoderRunEnds :
    (decoding 1 1 [0x55, 1, 2, 3]).Sound ∧ (decoding 1 1 [0x55, 1, 2, 3]).pending = [] ∧
    (decoding 1 1 [0x55, 1, 2, 3]).dec.core.state = .busy ∧
    (decoding 1 1 [0x55, 1, 2, 3]).enc.core.state ≠ .busy ∧
    (decoding 1 1 [0x55, 1, 2, 3]).dec.core.n.toNat + 1 =
      (decoding 1 1 [0x55, 1, 2, 3]).dec.core.width.toNat * (decoding 1 1 [0x55, 1, 2, 3]).dec.core.height.toNat ∧
    ∀ a, a < 4 → (Cells.read (decoding 1 1 [0x55, 1, 2, 3]).dec.stream a).isSome :=
  ⟨sound_decoding 1 1 _ (by decide) (by decide), by decide, by decide, by decide, by decide, by decide⟩
theorem witness_EncoderRunEnds :
    (encoding 1 1 [1, 2, 3]).Sound ∧ (encoding 1 1 [1, 2, 3]).enc.InputReady ∧
    (encoding 1 1 [1, 2, 3]).pending = [] ∧ (encoding 1 1 [1, 2, 3]).enc.core.state = .busy ∧
    (encoding 1 1 [1, 2, 3]).dec.core.state ≠ .busy ∧
    (encoding 1 1 [1, 2, 3]).enc.core.n.toNat + 1 =
      (encoding 1 1 [1, 2, 3]).enc.core.width.toNat * (encoding 1 1 [1, 2, 3]).enc.core.height.toNat :=
  ⟨sound_encoding 1 1 _ (by decide) (by decide), fun _ => by decide, by decide, by decide, by decide,
    by decide⟩
theorem witness_RoundTrip :
    State.reset.pending = [] ∧ State.reset.enc.core.state ≠ .busy ∧ State.reset.dec.core.state ≠ .busy ∧
    0 < (2 : BitVec 16).toNat ∧ 0 < (1 : BitVec 16).toNat ∧
    (2 : BitVec 16).toNat ≤ State.reset.cfg.maxWidth.toNat ∧
    [(1 : Byte), 2, 3, 4, 5, 6].length = 3 * ((2 : BitVec 16).toNat * (1 : BitVec 16).toNat) := by decide

end Sys2Proof.Tests
end

