-- ==== Sys2Proof/Proofs/Encoding.lean ====
section
/-! The encoding by its bytes: four bytes of any values decode, and each format as arithmetic on its fields. -/

namespace Sys2Proof

/-! ### Every byte is legal -/

/-- Three bytes after the leading one are enough for every class (R92, R103). -/
theorem decodeOpcode_of_three (op : Opcode) (b0 b1 b2 b3 : Byte) (rest : List Byte) :
    ∃ i, i.opcode = op ∧
      decodeOpcode op b0 (b1 :: b2 :: b3 :: rest) =
        .ok (i, (b1 :: b2 :: b3 :: rest).drop (op.length - 1)) := by
  cases op with
  | rgb => exact ⟨decodeRgb b1 b2 b3, rfl, rfl⟩
  | diff2 => exact ⟨decodeDiff2 b0 b1 b2, rfl, rfl⟩
  | run => exact ⟨decodeRun b0, rfl, rfl⟩
  | index => exact ⟨decodeIndex b0, rfl, rfl⟩
  | diff3 => exact ⟨decodeDiff3 b0 b1, rfl, rfl⟩
  | diff => exact ⟨decodeDiff b0, rfl, rfl⟩
  | luma => exact ⟨decodeLuma b0 b1, rfl, rfl⟩

/-- 0xFF, the one byte whose low five bits RUN may not hold, is tested for RGB before RUN (R100). -/
theorem runFieldOk_of_classify :
    ∀ b0 : Byte, classify b0 = .run → runFieldOk (b0.extractLsb' 0 5) = true := by decide

/-- Whatever decodes is well formed: RUN, the third arm of `decodeOpcode`, is the only opcode with a
forbidden field value (R98, R103). -/
theorem decode_wellFormed {bytes rest : List Byte} {i : Instr} (h : decode bytes = .ok (i, rest)) :
    i.wellFormed = true := by
  cases bytes with
  | nil => cases h
  | cons b0 tail =>
    simp only [decode] at h
    generalize hc : classify b0 = op at h
    unfold decodeOpcode at h
    split at h <;> cases h
    case h_3 => exact runFieldOk_of_classify b0 hc
    all_goals rfl

/-- No valid RUN is the byte 0xFF, which is RGB's (R98). -/
theorem encode_run_ne_ff {f : BitVec 5} (hf : (Instr.run f).wellFormed = true) :
    encode (.run f) ≠ [0xFF] := by
  intro h
  have hrun : classify 0xFF = .run := classify_leading hf (by rw [h]; rfl)
  exact absurd hrun (by decide)

/-- Settles O4: the classes one by one for the decoding, `decode_wellFormed` for its result. -/
theorem everyByteIsLegal : Obligations.EveryByteIsLegal := by
  refine ⟨fun b0 b1 b2 b3 rest => ?_, by decide, fun f => encode_run_ne_ff⟩
  obtain ⟨i, hop, hdec⟩ := decodeOpcode_of_three (classify b0) b0 b1 b2 b3 rest
  exact ⟨i, decode_wellFormed (bytes := b0 :: b1 :: b2 :: b3 :: rest) hdec, hop, hdec⟩

/-! ### Fields as numbers -/

/-- Concatenation of fields is arithmetic: the upper field counts in units of the lower one's range. -/
theorem toNat_append_eq {n m : Nat} (x : BitVec n) (y : BitVec m) :
    (x ++ y).toNat = 2 ^ m * x.toNat + y.toNat := by
  rw [BitVec.toNat_append, ← Nat.shiftLeft_add_eq_or_of_lt y.isLt, Nat.shiftLeft_eq, Nat.mul_comm]

theorem append_eq_ofNat {n m : Nat} (x : BitVec n) (y : BitVec m) :
    x ++ y = BitVec.ofNat (n + m) (2 ^ m * x.toNat + y.toNat) := by
  rw [← toNat_append_eq, BitVec.ofNat_toNat, BitVec.setWidth_eq]

theorem encode_diff_eq (vr vg vb : BitVec 2) :
    encode (.diff vr vg vb) = [BitVec.ofNat 8 (0x40 + 16 * vr.toNat + 4 * vg.toNat + vb.toNat)] := by
  have hsum : (0b01#2 ++ vr ++ vg ++ vb).toNat = 0x40 + 16 * vr.toNat + 4 * vg.toNat + vb.toNat := by
    simp only [toNat_append_eq, BitVec.toNat_ofNat]
    omega
  rw [encode, ← hsum, BitVec.ofNat_toNat, BitVec.setWidth_eq]

theorem encode_diff3_eq (vr : BitVec 4) (vg : BitVec 5) (vb : BitVec 4) :
    encode (.diff3 vr vg vb) =
      [BitVec.ofNat 8 (0x20 + vg.toNat), BitVec.ofNat 8 (16 * vr.toNat + vb.toNat)] := by
  rw [encode, append_eq_ofNat 0b001#3 vg, append_eq_ofNat vr vb]
  rfl

theorem encode_luma_eq (vg : BitVec 6) (vgr vgb : BitVec 4) :
    encode (.luma vg vgr vgb) =
      [BitVec.ofNat 8 (0x80 + vg.toNat), BitVec.ofNat 8 (16 * vgr.toNat + vgb.toNat)] := by
  rw [encode, append_eq_ofNat 0b10#2 vg, append_eq_ofNat vgr vgb]
  rfl

theorem encode_run_eq (f : BitVec 5) : encode (.run f) = [BitVec.ofNat 8 (0xE0 + f.toNat)] := by
  rw [encode, append_eq_ofNat 0b111#3 f]
  rfl

theorem encode_index_eq (i : BitVec 5) : encode (.index i) = [BitVec.ofNat 8 i.toNat] := by
  rw [encode, append_eq_ofNat 0b000#3 i, BitVec.toNat_ofNat, Nat.zero_mod, Nat.mul_zero, Nat.zero_add]

/-- The valid run fields are 0 to 30 (R98). -/
theorem runFieldOk_iff (f : BitVec 5) : runFieldOk f = true ↔ f.toNat ≤ 30 := by
  revert f; decide

/-- Settles O5: the formats one by one; a valid run field keeps RUN off 0xFF. -/
theorem opcodeFormats : Obligations.OpcodeFormats :=
  ⟨fun _ _ _ => rfl, encode_diff_eq, encode_diff3_eq, encode_luma_eq,
    fun f hf => ⟨encode_run_eq f, encode_run_ne_ff ((runFieldOk_iff f).mpr hf)⟩, encode_index_eq⟩

end Sys2Proof
end

