-- ==== Sys2Proof/Proofs/Prediction.lean ====
section
/-! The prediction: the rule of R132 by row and column, and the invariant of R135 by which one row of
history computes it. -/

namespace Sys2Proof.Machine

open Sys2Proof

/-! ### The rule by row and column -/

section
variable {w : Nat} (px : Nat → Pixel) (y : Nat) {x : Nat}

theorem predictionRule_origin : predictionRule w px 0 = .zero := rfl

theorem predictionRule_firstRow (hx : x + 1 < w) : predictionRule w px (x + 1) = px x := by
  rw [predictionRule, if_neg (Nat.succ_ne_zero x), if_pos hx]
  rfl

theorem predictionRule_firstColumn (hw : 0 < w) :
    predictionRule w px ((y + 1) * w) = px (y * w) := by
  have hn : (y + 1) * w = y * w + w := Nat.succ_mul y w
  rw [predictionRule, if_neg (by omega), if_neg (by omega), if_pos (Nat.mul_mod_left _ _), hn,
    Nat.add_sub_cancel]

theorem predictionRule_inside (hx : x + 1 < w) :
    predictionRule w px ((y + 1) * w + (x + 1)) =
      medPixel (px ((y + 1) * w + x)) (px (y * w + (x + 1))) (px (y * w + x)) := by
  have hn : (y + 1) * w = y * w + w := Nat.succ_mul y w
  have hmod : ((y + 1) * w + (x + 1)) % w = x + 1 := by
    rw [Nat.mul_add_mod_self_right, Nat.mod_eq_of_lt hx]
  have habove : (y + 1) * w + (x + 1) - w = y * w + (x + 1) := by omega
  rw [predictionRule, if_neg (by omega), if_neg (by omega), if_neg (by omega), habove]
  rfl

end

/-! ### One row of history -/

/-- The invariant of R135 between two calls of `advance`, with row `y` and column `x` the next position of
the image whose pixel at a raster index is `px`: the registers of the iterator, its prediction, and the row
buffer, which holds the current row up to two columns back and the row above from there. -/
structure Predictor.HistoryAt (w : BitVec 16) (px : Nat → Pixel) (y x : Nat) (p : Predictor) : Prop where
  inRow : x < w.toNat
  col : p.col.toNat = x
  first : p.first = decide (y = 0)
  left : 0 < y * w.toNat + x → p.a = px (y * w.toNat + x - 1)
  pred : p.pred = predictionRule w.toNat px (y * w.toNat + x)
  rowBefore : ∀ j, j + 2 ≤ x → Cells.read p.row j = some (px (y * w.toNat + j))
  rowAbove : ∀ j, x ≤ j + 1 → j < w.toNat → 0 < y →
    Cells.read p.row j = some (px ((y - 1) * w.toNat + j))
  rowFresh : ∀ j, x ≤ j + 1 → y = 0 → Cells.read p.row j = none

namespace Predictor.HistoryAt

variable {w : BitVec 16} {px : Nat → Pixel} {y x : Nat} {cur : Pixel} {p p' : Predictor}

/-- At reset the iterator stands before the first pixel. -/
theorem reset (hw : 0 < w.toNat) : Predictor.reset.HistoryAt w px 0 0 where
  inRow := hw
  col := rfl
  first := rfl
  left h := by omega
  pred := by rw [Nat.zero_mul, Nat.zero_add, predictionRule_origin]; rfl
  rowBefore j hj := by omega
  rowAbove j _ _ hy := by omega
  rowFresh _ _ _ := rfl

/-- No entry is read before it has been written (R137). -/
theorem readable (h : p.HistoryAt w px y x) : p.Readable w where
  inRow := h.col ▸ h.inRow
  wrap _ hx := by rw [h.rowBefore 0 (h.col ▸ hx)]; rfl
  above hx hf := by
    rw [h.col] at hx
    have hy : 0 < y := by
      rw [h.first, decide_eq_false_iff_not] at hf
      omega
    rw [h.col, h.rowAbove (x + 1) (by omega) hx hy, h.rowAbove x (by omega) h.inRow hy]
    exact ⟨rfl, rfl⟩

/-- The delayed write of P.A, at the previous column of this row. -/
theorem left_delayed (h : p.HistoryAt w px y x) {j : Nat} (hj : j + 1 = x) :
    p.a = px (y * w.toNat + j) := by
  rw [h.left (by omega), ← hj]
  rfl

/-- After steps 1 and 2 the entries before this column are this row's. -/
theorem read_rowAfter_before (h : p.HistoryAt w px y x) {j : Nat} (hj : j + 1 ≤ x) :
    Cells.read (p.rowAfter w cur) j = some (px (y * w.toNat + j)) := by
  rw [read_rowAfter, h.col, if_neg (by omega)]
  split_ifs with hd
  · rw [h.left_delayed hd]
  · exact h.rowBefore j (by omega)

/-- Inside a row the step leaves the entries from this column on. -/
theorem read_rowAfter_rest (h : p.HistoryAt w px y x) (hx : x + 1 < w.toNat) {j : Nat} (hj : x ≤ j) :
    Cells.read (p.rowAfter w cur) j = Cells.read p.row j := by
  rw [read_rowAfter, h.col, if_neg (by omega), if_neg (by omega)]

/-- On the last column steps 1 and 2 complete the row. -/
theorem read_rowAfter_last (h : p.HistoryAt w px y x) (hx : x + 1 = w.toNat) {j : Nat}
    (hj : j < w.toNat) :
    Cells.read (p.rowAfter w (px (y * w.toNat + x))) j = some (px (y * w.toNat + j)) := by
  rcases Nat.lt_or_ge j x with hl | hg
  · exact h.read_rowAfter_before hl
  · have hjx : j = x := by omega
    rw [read_rowAfter, h.col, if_pos ⟨hjx, hx⟩, hjx]

/-- Inside a row step 5 predicts by case 2 in the first row and by case 4 below it. -/
theorem predictNext_inside (h : p.HistoryAt w px y x) (hx : x + 1 < w.toNat) :
    predictNext (px (y * w.toNat + x)) (p.colAfter w) (p.firstAfter w)
        (p.rowAfter w (px (y * w.toNat + x))) =
      .ok (predictionRule w.toNat px (y * w.toNat + (x + 1))) := by
  have hcol : p.col.toNat + 1 < w.toNat := by rw [h.col]; exact hx
  cases y with
  | zero =>
    rw [predictNext_first hcol h.first, Nat.zero_mul, Nat.zero_add, Nat.zero_add,
      predictionRule_firstRow px hx]
  | succ y =>
    have hb := h.rowAbove (x + 1) (by omega) hx (Nat.succ_pos y)
    have hc := h.rowAbove x (by omega) h.inRow (Nat.succ_pos y)
    rw [← h.col] at hb hc
    rw [predictNext_med hcol h.first hb hc, h.col, predictionRule_inside px y hx,
      Nat.add_sub_cancel]

/-- At a wrap step 5 predicts by case 3, from the row just completed. -/
theorem predictNext_wrap (h : p.HistoryAt w px y x) (hx : x + 1 = w.toNat) :
    predictNext (px (y * w.toNat + x)) (p.colAfter w) (p.firstAfter w)
        (p.rowAfter w (px (y * w.toNat + x))) =
      .ok (predictionRule w.toNat px ((y + 1) * w.toNat)) := by
  have hw : 0 < w.toNat := by omega
  rw [predictNext_last (by rw [h.col]; exact hx), readRow_ok_iff, h.read_rowAfter_last hx hw,
    predictionRule_firstColumn px y hw, Nat.add_zero]

theorem advance_inside (h : p.HistoryAt w px y x) (hx : x + 1 < w.toNat)
    (ha : advance w (px (y * w.toNat + x)) p = .ok p') : p'.HistoryAt w px y (x + 1) := by
  obtain ⟨hpred, hleft, hcol, hfirst, hrow⟩ := advance_ok_iff.mp ha
  have hcx : p.col.toNat + 1 < w.toNat := by rw [h.col]; exact hx
  exact {
    inRow := hx
    col := by rw [hcol, colAfter_inside hcx, h.col]
    first := by rw [hfirst, firstAfter_inside hcx, h.first]
    left := fun _ => hleft
    pred := Except.ok.inj (hpred.symm.trans (h.predictNext_inside hx))
    rowBefore := fun j hj => by rw [hrow, h.read_rowAfter_before (by omega)]
    rowAbove := fun j hj hw hy => by
      rw [hrow, h.read_rowAfter_rest hx (by omega), h.rowAbove j (by omega) hw hy]
    rowFresh := fun j hj hy => by
      rw [hrow, h.read_rowAfter_rest hx (by omega), h.rowFresh j (by omega) hy] }

theorem advance_wrap (h : p.HistoryAt w px y x) (hx : x + 1 = w.toNat)
    (ha : advance w (px (y * w.toNat + x)) p = .ok p') : p'.HistoryAt w px (y + 1) 0 := by
  obtain ⟨hpred, hleft, hcol, hfirst, hrow⟩ := advance_ok_iff.mp ha
  have hcx : p.col.toNat + 1 = w.toNat := by rw [h.col]; exact hx
  have hlast : (y + 1) * w.toNat + 0 - 1 = y * w.toNat + x := by
    rw [Nat.succ_mul]; omega
  exact {
    inRow := by omega
    col := by rw [hcol, colAfter_last hcx]; rfl
    first := by rw [hfirst, firstAfter_last hcx]; rfl
    left := fun _ => by rw [hleft, hlast]
    pred := Except.ok.inj (hpred.symm.trans (h.predictNext_wrap hx))
    rowBefore := fun j hj => by omega
    rowAbove := fun j _ hw _ => by rw [hrow, h.read_rowAfter_last hx hw, Nat.add_sub_cancel]
    rowFresh := fun j _ hy => by omega }

/-- The step lemma of R135, by raster index. -/
theorem advance_ok {n : Nat} (h : p.HistoryAt w px (n / w.toNat) (n % w.toNat))
    (ha : advance w (px n) p = .ok p') :
    p'.HistoryAt w px ((n + 1) / w.toNat) ((n + 1) % w.toNat) := by
  have hn : n / w.toNat * w.toNat + n % w.toNat = n := Nat.div_add_mod' n w.toNat
  have hw : 0 < w.toNat := Nat.zero_lt_of_lt h.inRow
  generalize n / w.toNat = y, n % w.toNat = x at h hn
  subst hn
  rcases Nat.lt_or_eq_of_le h.inRow with hx | hx
  · obtain ⟨hdiv, hmod⟩ := (Nat.div_mod_unique (a := y * w.toNat + x + 1) (d := y) (c := x + 1) hw).mpr
      ⟨by rw [Nat.mul_comm]; omega, hx⟩
    rw [hdiv, hmod]
    exact h.advance_inside hx ha
  · obtain ⟨hdiv, hmod⟩ := (Nat.div_mod_unique (a := y * w.toNat + x + 1) (d := y + 1) (c := 0) hw).mpr
      ⟨by rw [Nat.mul_comm, Nat.succ_mul]; omega, hw⟩
    rw [hdiv, hmod]
    exact h.advance_wrap hx ha

end Predictor.HistoryAt

/-! ### From reset, over any image -/

theorem predictorAfter_succ {w : BitVec 16} {px : Nat → Pixel} {n : Nat} {p : Predictor}
    (h : predictorAfter w px n = .ok p) : predictorAfter w px (n + 1) = advance w (px n) p := by
  rw [predictorAfter, h]

/-- The iterator fed an image in raster order completes every call and keeps the invariant of R135. -/
theorem predictorAfter_historyAt {w : BitVec 16} (px : Nat → Pixel) (hw : 0 < w.toNat) (n : Nat) :
    ∃ p, predictorAfter w px n = .ok p ∧ p.HistoryAt w px (n / w.toNat) (n % w.toNat) := by
  induction n with
  | zero =>
    rw [Nat.zero_div, Nat.zero_mod]
    exact ⟨.reset, rfl, .reset hw⟩
  | succ n ih =>
    obtain ⟨p, hp, hist⟩ := ih
    obtain ⟨p', ha⟩ := advance_completes hist.readable (px n)
    exact ⟨p', (predictorAfter_succ hp).trans ha, hist.advance_ok ha⟩

/-- After the pixels of any image up to a raster index the iterator holds the rule's prediction for it. -/
theorem predictorAfter_pred {w : BitVec 16} (px : Nat → Pixel) (hw : 0 < w.toNat) (n : Nat) :
    ∃ p, predictorAfter w px n = .ok p ∧ p.pred = predictionRule w.toNat px n := by
  obtain ⟨p, hp, hist⟩ := predictorAfter_historyAt px hw n
  exact ⟨p, hp, by rw [hist.pred, Nat.div_add_mod']⟩

/-- Settles O16: `predictorAfter_pred` by the invariant of R135, and the rule at each of the four cases. -/
theorem predictionByFourCases : Obligations.PredictionByFourCases := by
  intro w px y x hx
  have hw : 0 < w.toNat := Nat.zero_lt_of_lt hx
  have hpx : ∀ i j, j < w.toNat →
      px ((i * w.toNat + j) / w.toNat) ((i * w.toNat + j) % w.toNat) = px i j := by
    intro i j hj
    rw [Nat.mul_add_mod_self_right, Nat.mod_eq_of_lt hj, Nat.mul_comm, Nat.mul_add_div hw,
      Nat.div_eq_of_lt hj, Nat.add_zero]
  obtain ⟨p, hp, hpred⟩ :=
    predictorAfter_pred (fun n => px (n / w.toNat) (n % w.toNat)) hw (y * w.toNat + x)
  refine ⟨p, hp, ?_, ?_, ?_, ?_⟩ <;> rw [hpred]
  · rintro rfl rfl
    rw [Nat.zero_mul, predictionRule_origin]
  · rintro rfl h1
    obtain ⟨x, rfl⟩ := Nat.exists_eq_add_of_le' h1
    rw [Nat.zero_mul, Nat.zero_add, predictionRule_firstRow _ hx]
    simpa using hpx 0 x (by omega)
  · rintro h1 rfl
    obtain ⟨y, rfl⟩ := Nat.exists_eq_add_of_le' h1
    rw [Nat.add_zero, predictionRule_firstColumn _ y hw]
    simpa using hpx y 0 hw
  · intro hy h1
    obtain ⟨y, rfl⟩ := Nat.exists_eq_add_of_le' hy
    obtain ⟨x, rfl⟩ := Nat.exists_eq_add_of_le' h1
    rw [predictionRule_inside _ y hx]
    simp only [hpx (y + 1) x (by omega), hpx y (x + 1) hx, hpx y x (by omega), medPixel,
      Nat.add_sub_cancel]

end Sys2Proof.Machine
end

