-- ==== Sys2Proof/Proofs/ChannelArithmetic.lean ====
section
/-! Channel arithmetic: sums and differences modulo 256, sign extension and the fit test for every width up
to 8, and LUMA's secondary deltas. -/

namespace Sys2Proof.Machine

open Sys2Proof

/-! ### Sums and differences -/

/-- `a -8 b` is the mathematical remainder of the integer difference (R165). -/
theorem byte_sub_eq_emod (x y : Byte) : ((x - y).toNat : Int) = ((x.toNat : Int) - y.toNat) % 256 := by
  have hx := x.isLt
  have hy := y.isLt
  rw [BitVec.toNat_sub]
  omega

/-- Settles O8: addition of bit vectors, and `byte_sub_eq_emod`, in each channel. -/
theorem channelArithmeticWraps : Obligations.ChannelArithmeticWraps := fun p q =>
  ⟨BitVec.toNat_add p.r q.r, BitVec.toNat_add p.g q.g, BitVec.toNat_add p.b q.b,
    byte_sub_eq_emod p.r q.r, byte_sub_eq_emod p.g q.g, byte_sub_eq_emod p.b q.b⟩

/-- The decoder's sum undoes the encoder's difference (R166). -/
@[simp] theorem addPixel_subPixel (q p : Pixel) : addPixel q (subPixel p q) = p := by
  simp only [addPixel, subPixel, add_sub_cancel]

/-- Settles O9: the differences by definition, the sum by `addPixel_subPixel`. -/
theorem deltasInvert : Obligations.DeltasInvert := fun p q => ⟨rfl, addPixel_subPixel q p⟩

/-! ### Sign extension -/

section
variable {n : Nat} {f : BitVec n}

theorem sext_of_msb (h : f.msb = true) : sext f = f.setWidth 8 ||| (0xFF#8 <<< n) := if_pos h

theorem sext_of_not_msb (h : f.msb = false) : sext f = f.setWidth 8 :=
  if_neg (Bool.not_eq_true _ ▸ h)

/-- The forced bits of R167 are the copies of the sign bit that two's-complement sign extension makes. -/
theorem sext_eq_signExtend (hn : n ≤ 8) (f : BitVec n) : sext f = f.signExtend 8 := by
  cases h : f.msb with
  | false => rw [sext_of_not_msb h, BitVec.signExtend_eq_setWidth_of_msb_false h]
  | true =>
    rw [sext_of_msb h]
    ext i hi
    have hones : (0xFF#8).getLsbD (i - n) = true := by
      rw [show (0xFF#8) = BitVec.allOnes 8 from rfl, BitVec.getLsbD_allOnes, decide_eq_true]
      omega
    by_cases hin : i < n <;> simp [BitVec.getElem_signExtend, hin, h, hones]

theorem sext_toInt (hn : n ≤ 8) (f : BitVec n) : (sext f).toInt = f.toInt := by
  rw [sext_eq_signExtend hn, BitVec.toInt_signExtend_of_le hn]

theorem sext_toNat (hn : n ≤ 8) (f : BitVec n) : (sext f).toNat = signedField n f.toNat := by
  have hpow : 2 ^ n ≤ 2 ^ 8 := Nat.pow_le_pow_right (by decide) hn
  rw [sext_eq_signExtend hn, BitVec.toNat_signExtend, BitVec.toNat_setWidth_of_le hn,
    BitVec.msb_eq_decide, signedField]
  by_cases hsign : 2 ^ (n - 1) ≤ f.toNat
  · rw [if_pos (decide_eq_true hsign), if_neg (Nat.not_lt.mpr hsign)]
    omega
  · rw [if_neg (by simpa using hsign), if_pos (Nat.not_le.mp hsign), Nat.add_zero]

/-- R167 at one width: as a number, as a signed value, and in bits. -/
theorem sext_spec (hn : n ≤ 8) (f : BitVec n) :
    (sext f).toNat = signedField n f.toNat ∧ (sext f).toInt = f.toInt ∧
    (f.msb = true → sext f = f.setWidth 8 ||| (0xFF#8 <<< n)) ∧
    (f.msb = false → sext f = f.setWidth 8) :=
  ⟨sext_toNat hn f, sext_toInt hn f, sext_of_msb, sext_of_not_msb⟩

end

/-- Settles O10: `sext_spec` at the five widths in use. -/
theorem signExtension : Obligations.SignExtension :=
  ⟨sext_spec (by decide), sext_spec (by decide), sext_spec (by decide), sext_spec (by decide),
    sext_spec (by decide)⟩

/-! ### The fit test -/

section
variable {n : Nat} {v : Byte}

theorem fits_iff_topBits :
    fits n v = true ↔ v.toNat / 2 ^ (n - 1) = 0 ∨ v.toNat / 2 ^ (n - 1) = 2 ^ (9 - n) - 1 := by
  simp only [fits, Bool.or_eq_true, beq_iff_eq, BitVec.toNat_ushiftRight, Nat.shiftRight_eq_div_pow]

/-- The top bits are all 0 below `2^(N-1)` and all 1 in the last `2^(N-1)` byte values (R168). -/
theorem fits_iff_inRange (h0 : 0 < n) (h8 : n ≤ 8) : fits n v = true ↔ inRange n v := by
  have hv := v.isLt
  have hpos : 0 < 2 ^ (n - 1) := Nat.two_pow_pos _
  have hmul : 2 ^ (9 - n) * 2 ^ (n - 1) = 256 := by
    rw [← Nat.pow_add, show 9 - n + (n - 1) = 8 by omega]
  have hcast : (2 : Int) ^ (n - 1) = ((2 ^ (n - 1) : Nat) : Int) := by push_cast; rfl
  rw [fits_iff_topBits, Nat.div_eq_zero_iff, Nat.div_eq_iff hpos, Nat.sub_mul, hmul, inRange, hcast,
    BitVec.toInt_eq_toNat_cond]
  generalize 2 ^ (n - 1) = k at *
  split_ifs <;> omega

/-- A signed value survives truncation to N bits exactly when it lies in the N-bit range (R168, R170). -/
theorem sext_field_iff_inRange (h0 : 0 < n) (h8 : n ≤ 8) : sext (field n v) = v ↔ inRange n v := by
  have htrunc : (field n v).toInt = v.toInt.bmod (2 ^ n) := by
    rw [field, ← BitVec.signExtend_eq_setWidth_of_le v h8, BitVec.toInt_signExtend, Nat.min_eq_left h8]
  rw [← BitVec.toInt_inj, sext_toInt h8]
  constructor
  · intro h
    rw [inRange, ← h]
    exact ⟨BitVec.le_toInt _, Int.le_sub_one_of_lt BitVec.toInt_lt⟩
  · rintro ⟨hlo, hhi⟩
    have hpow : ((2 ^ n : Nat) : Int) = 2 ^ (n - 1) * 2 := by
      rw [← pow_succ, Nat.sub_add_cancel h0]; push_cast; rfl
    rw [htrunc]
    exact Int.bmod_eq_of_le_mul_two (by omega) (by omega)

/-- A value that passes the test is stored without loss (R170). -/
theorem sext_field_of_fits (h0 : 0 < n) (h8 : n ≤ 8) (h : fits n v = true) : sext (field n v) = v :=
  (sext_field_iff_inRange h0 h8).mpr ((fits_iff_inRange h0 h8).mp h)

end

/-- Settles O11: both tests by the signed range, for every width from 1 to 8. -/
theorem fitTest : Obligations.FitTest := by
  intro n hn v
  have h0 : 0 < n := by omega
  have h8 : n ≤ 8 := by omega
  exact ⟨fits_iff_inRange h0 h8, fits_iff_topBits,
    (fits_iff_inRange h0 h8).trans (sext_field_iff_inRange h0 h8).symm⟩

/-! ### LUMA -/

/-- What the chain has tested, and the fields it stores, when it answers LUMA (R171). -/
theorem selectOpcode_luma {v px : Pixel} {vg : BitVec 6} {vgr vgb : BitVec 4}
    (h : selectOpcode v px = .luma vg vgr vgb) :
    (fits 4 (v.r - v.g) = true ∧ fits 4 (v.b - v.g) = true ∧ fits 6 v.g = true) ∧
    vg = field 6 v.g ∧ vgr = field 4 (v.r - v.g) ∧ vgb = field 4 (v.b - v.g) := by
  unfold selectOpcode at h
  split_ifs at h with hdiff hdiff3 hluma hdiff2
  obtain ⟨rfl, rfl, rfl⟩ := Instr.luma.inj h
  simpa [and_assoc] using hluma

/-- The decoder's LUMA pixel of the encoder's fields is the prediction plus the deltas (R171). -/
theorem lumaPixel_fields {q : Pixel} {vr vg vb : Byte} (hg : fits 6 vg = true)
    (hr : fits 4 (vr - vg) = true) (hb : fits 4 (vb - vg) = true) :
    lumaPixel q (field 6 vg) (field 4 (vr - vg)) (field 4 (vb - vg)) = addPixel q ⟨vr, vg, vb⟩ := by
  rw [lumaPixel, sext_field_of_fits (by decide) (by decide) hg,
    sext_field_of_fits (by decide) (by decide) hr, sext_field_of_fits (by decide) (by decide) hb,
    BitVec.sub_add_cancel, BitVec.sub_add_cancel]

/-- Settles O14: the encoder by `selectOpcode_luma`, the reconstruction by `lumaPixel_fields`. -/
theorem lumaRebuildsDeltas : Obligations.LumaRebuildsDeltas := by
  refine ⟨BitVec.sub_add_cancel, fun _ _ _ _ => rfl, ?_, fun _ _ _ _ => lumaPixel_fields⟩
  rintro v px ⟨vg, vgr, vgb, h⟩
  obtain ⟨⟨hr, hb, hg⟩, rfl, rfl, rfl⟩ := selectOpcode_luma h
  exact ⟨hr, hb, hg, h⟩

end Sys2Proof.Machine
end

