-- ==== Sys2Proof/Proofs/EncoderStep.lean ====
section
/-! The encoder's pixel step: the opcode the chain selects by the ranges of the deltas, its bytes by their
low bits, and the shape every step has. -/

namespace Sys2Proof

/-- The three bytes of DIFF2, the fields of red and green split as conflict C1 has them (R97). -/
theorem encode_diff2_eq (vr vg vb : BitVec 7) :
    encode (.diff2 vr vg vb) =
      [BitVec.ofNat 8 (0xC0 + vr.toNat % 32), BitVec.ofNat 8 (4 * (vg.toNat % 64) + vr.toNat / 32),
        BitVec.ofNat 8 (2 * vb.toNat + vg.toNat / 64)] := by
  rw [encode, append_eq_ofNat 0b110#3 (vr.extractLsb' 0 5),
    append_eq_ofNat (vg.extractLsb' 0 6) (vr.extractLsb' 5 2), append_eq_ofNat vb (vg.extractLsb' 6 1)]
  have hr : vr.toNat / 32 % 4 = vr.toNat / 32 := by omega
  have hg : vg.toNat / 64 % 2 = vg.toNat / 64 := by omega
  simp only [BitVec.extractLsb'_toNat, Nat.shiftRight_eq_div_pow, Nat.pow_zero, Nat.div_one,
    Nat.reducePow, BitVec.toNat_ofNat, hr, hg]

namespace Machine

/-! ### The slot number and the fields as numbers -/

/-- The slot is the sum of the channels modulo 32: the model forms it in 8 bits, and 32 divides 256 (R150). -/
theorem hash_toNat (p : Pixel) : (hash p).toNat = (p.r.toNat + p.g.toNat + p.b.toNat) % 32 := by
  simp only [hash, BitVec.toNat_setWidth, BitVec.toNat_add]
  omega

/-- The field stored for a byte is the byte's low bits (R102). -/
@[simp] theorem field_toNat (n : Nat) (v : Byte) : (field n v).toNat = lowBits n v :=
  BitVec.toNat_setWidth n v

/-- The low bits of the low bits. -/
theorem lowBits_mod (m n : Nat) (h : m ≤ n) (v : Byte) : lowBits n v % 2 ^ m = lowBits m v :=
  Nat.mod_mod_of_dvd _ (Nat.pow_dvd_pow 2 h)

/-- The bytes of DIFF2 for three deltas (R232). -/
theorem encode_diff2_fields (vr vg vb : Byte) :
    encode (.diff2 (field 7 vr) (field 7 vg) (field 7 vb)) =
      [BitVec.ofNat 8 (0xC0 + lowBits 5 vr), BitVec.ofNat 8 (4 * lowBits 6 vg + lowBits 7 vr / 32),
        BitVec.ofNat 8 (2 * lowBits 7 vb + lowBits 7 vg / 64)] := by
  have hr : lowBits 7 vr % 32 = lowBits 5 vr := lowBits_mod 5 7 (by decide) vr
  have hg : lowBits 7 vg % 64 = lowBits 6 vg := lowBits_mod 6 7 (by decide) vg
  simp only [encode_diff2_eq, field_toNat, hr, hg]

/-! ### The chain by the ranges of the deltas -/

/-- One test of the chain: three values, each in the range of its width (R168, R228). -/
theorem fits_three_iff {i j k : Nat} {x y z : Byte} (hw : ∀ n ∈ [i, j, k], 0 < n ∧ n ≤ 8) :
    (fits i x && fits j y && fits k z) = true ↔ inRange i x ∧ inRange j y ∧ inRange k z := by
  have hfit : ∀ n ∈ [i, j, k], ∀ v : Byte, fits n v = true ↔ inRange n v := fun n hn v =>
    fits_iff_inRange (hw n hn).1 (hw n hn).2
  rw [Bool.and_eq_true, Bool.and_eq_true, hfit i (by simp), hfit j (by simp), hfit k (by simp),
    and_assoc]

section
variable {v px : Pixel}

/-! Each form is selected when its own test is the first of the chain to hold (R228 to R232). -/

theorem selectOpcode_of_diff (hdiff : inRange 2 v.r ∧ inRange 2 v.g ∧ inRange 2 v.b) :
    selectOpcode v px = .diff (field 2 v.r) (field 2 v.g) (field 2 v.b) := by
  simp (disch := decide) only [selectOpcode, fits_three_iff, hdiff, and_self, if_true]

theorem selectOpcode_of_diff3 (hdiff : ¬(inRange 2 v.r ∧ inRange 2 v.g ∧ inRange 2 v.b))
    (hdiff3 : inRange 4 v.r ∧ inRange 4 v.b ∧ inRange 5 v.g) :
    selectOpcode v px = .diff3 (field 4 v.r) (field 5 v.g) (field 4 v.b) := by
  simp (disch := decide) only [selectOpcode, fits_three_iff, hdiff, hdiff3, and_self, if_true, if_false]

theorem selectOpcode_of_luma (hdiff : ¬(inRange 2 v.r ∧ inRange 2 v.g ∧ inRange 2 v.b))
    (hdiff3 : ¬(inRange 4 v.r ∧ inRange 4 v.b ∧ inRange 5 v.g))
    (hluma : inRange 4 (v.r - v.g) ∧ inRange 4 (v.b - v.g) ∧ inRange 6 v.g) :
    selectOpcode v px = .luma (field 6 v.g) (field 4 (v.r - v.g)) (field 4 (v.b - v.g)) := by
  simp (disch := decide) only [selectOpcode, fits_three_iff, hdiff, hdiff3, hluma, and_self, if_true,
    if_false]

theorem selectOpcode_of_diff2 (hdiff : ¬(inRange 2 v.r ∧ inRange 2 v.g ∧ inRange 2 v.b))
    (hdiff3 : ¬(inRange 4 v.r ∧ inRange 4 v.b ∧ inRange 5 v.g))
    (hluma : ¬(inRange 4 (v.r - v.g) ∧ inRange 4 (v.b - v.g) ∧ inRange 6 v.g))
    (hdiff2 : inRange 7 v.r ∧ inRange 7 v.g ∧ inRange 7 v.b) :
    selectOpcode v px = .diff2 (field 7 v.r) (field 7 v.g) (field 7 v.b) := by
  simp (disch := decide) only [selectOpcode, fits_three_iff, hdiff, hdiff3, hluma, hdiff2, and_self,
    if_true, if_false]

end

/-! ### A pixel that is no run pixel -/

/-- On a cache hit the step emits INDEX of the slot, after a pending run (R225, R226). -/
theorem encoderStep_hit {s : State} {px : Pixel}
    (hx : s.enc.pixels.readPixel s.enc.core.n.toNat = some px) (hp : px ≠ s.enc.core.prev)
    (hslot : s.enc.core.slot (hash px) = px) (hr : s.enc.core.p.Readable s.enc.core.width) :
    ∃ t, encoderStep s = .next t ∧
      EncoderStepped s t px (pendingRun s.enc.core.runcnt ++ encode (.index (hash px))) 0 false :=
  encoderStep_completes hx hr (Encoder.opcodes_hit hp hslot)

/-- On a miss the step emits the opcode the chain selects, after a pending run, and writes the slot (R225,
R228, R234). -/
theorem encoderStep_miss {s : State} {px : Pixel} {i : Instr}
    (hx : s.enc.pixels.readPixel s.enc.core.n.toNat = some px) (hp : px ≠ s.enc.core.prev)
    (hslot : s.enc.core.slot (hash px) ≠ px) (hr : s.enc.core.p.Readable s.enc.core.width)
    (hi : selectOpcode (subPixel px s.enc.core.p.pred) px = i) :
    ∃ t, encoderStep s = .next t ∧
      EncoderStepped s t px (pendingRun s.enc.core.runcnt ++ encode i) 0 true :=
  hi ▸ encoderStep_completes hx hr (Encoder.opcodes_miss hp hslot)

/-- Settles O33: the step on a hit, its byte by `encode_index_eq` and `hash_toNat`. -/
theorem encoderEmitsIndex : Obligations.EncoderEmitsIndex := by
  intro s px hx hp hslot hr
  have hstep := encoderStep_hit hx hp hslot hr
  rwa [encode_index_eq, hash_toNat] at hstep

/-- Settles O34: the first test of the chain holds. -/
theorem encoderEmitsDiff : Obligations.EncoderEmitsDiff := by
  rintro s px _ _ _ hx hp hslot hr rfl rfl rfl hfr hfg hfb
  have hstep := encoderStep_miss hx hp hslot hr (selectOpcode_of_diff ⟨hfr, hfg, hfb⟩)
  rwa [encode_diff_eq, field_toNat, field_toNat, field_toNat] at hstep

/-- Settles O35: the second test of the chain is the first to hold. -/
theorem encoderEmitsDiff3 : Obligations.EncoderEmitsDiff3 := by
  rintro s px _ _ _ hx hp hslot hr rfl rfl rfl hdiff hfr hfb hfg
  have hstep := encoderStep_miss hx hp hslot hr (selectOpcode_of_diff3 hdiff ⟨hfr, hfb, hfg⟩)
  rwa [encode_diff3_eq, field_toNat, field_toNat, field_toNat] at hstep

/-- Settles O36: the third test of the chain is the first to hold. -/
theorem encoderEmitsLuma : Obligations.EncoderEmitsLuma := by
  rintro s px _ _ _ hx hp hslot hr rfl rfl rfl hdiff hdiff3 hfr hfb hfg
  have hstep := encoderStep_miss hx hp hslot hr (selectOpcode_of_luma hdiff hdiff3 ⟨hfr, hfb, hfg⟩)
  rwa [encode_luma_eq, field_toNat, field_toNat, field_toNat] at hstep

/-- Settles O37: the fourth test of the chain is the first to hold. -/
theorem encoderEmitsDiff2 : Obligations.EncoderEmitsDiff2 := by
  rintro s px _ _ _ hx hp hslot hr rfl rfl rfl hdiff hdiff3 hluma hfr hfg hfb
  have hstep := encoderStep_miss hx hp hslot hr
    (selectOpcode_of_diff2 hdiff hdiff3 hluma ⟨hfr, hfg, hfb⟩)
  rwa [encode_diff2_fields] at hstep

/-! ### Every step -/

/-- Settles O39: the four ways of `Encoder.opcodes_cases`, two on a run pixel and two on any other. -/
theorem encoderStepShape : Obligations.EncoderStepShape := by
  intro s px hx hr
  obtain ⟨out, rc, colour, ho, hcases⟩ := s.enc.opcodes_cases px
  obtain ⟨t, hstep, hstepped⟩ := encoderStep_completes hx hr ho
  refine ⟨t, out, rc, colour, hstep, hstepped, ?_⟩
  rcases hcases with ⟨hp, hcolour, hout⟩ | ⟨hp, hrc, i, hout, hi⟩
  · refine ⟨fun _ => ⟨hcolour, ?_⟩, fun hne => absurd hp hne⟩
    rcases hout with ⟨rfl, -⟩ | ⟨rfl, -⟩
    · exact Nat.zero_le 1
    · exact Nat.le_refl 1
  · have hsel : (colour = true ↔ s.enc.core.slot (hash px) ≠ px) ∧ i.wellFormed = true ∧
        i.opcode ≠ .run := by
      rcases hi with ⟨rfl, hslot, rfl⟩ | ⟨rfl, hslot, rfl⟩
      · exact ⟨by simp [hslot], rfl, by simp [Instr.opcode]⟩
      · exact ⟨by simp [hslot], selectOpcode_wellFormed _ px, selectOpcode_ne_run _ px⟩
    obtain ⟨hwrite, hwf, hrun⟩ := hsel
    exact ⟨fun heq => absurd heq hp,
      fun _ => ⟨hrc, hwrite, i, hwf, hrun, hout, encode_length_pos i, encode_length_le i⟩⟩

end Machine

end Sys2Proof
end

section
/-! The decoder's pixel step: what the bytes of an opcode make a fetch answer, that every opcode and every
run-continuation step completes, and the pixel each opcode stands for. -/

namespace Sys2Proof

/-! ### The bytes of an opcode decode to it -/

/-- The fields an encoding puts together, the decoding of its class takes apart (R93 to R99, R101). -/
theorem decodeOpcode_encode {i : Instr} {b0 : Byte} {more : List Byte} (h : encode i = b0 :: more)
    (rest : List Byte) : decodeOpcode i.opcode b0 (more ++ rest) = .ok (i, rest) := by
  cases i <;> obtain ⟨rfl, rfl⟩ := List.cons.inj h
  case rgb r g b => rfl
  case diff2 vr vg vb =>
    simp [decodeOpcode, Instr.opcode, decodeDiff2, low5_tag110, fields_diff2_byte1, fields_diff2_byte2,
      join_vr, join_vg]
  case run f => simp [decodeOpcode, Instr.opcode, decodeRun, low5_tag111]
  case index i => simp [decodeOpcode, Instr.opcode, decodeIndex, low5_tag000]
  case diff3 vr vg vb => simp [decodeOpcode, Instr.opcode, decodeDiff3, low5_tag001, nibbles]
  case diff vr vg vb => simp [decodeOpcode, Instr.opcode, decodeDiff, fields_diff]
  case luma vg vgr vgb => simp [decodeOpcode, Instr.opcode, decodeLuma, low6_tag10, nibbles]

/-- Decoding inverts encoding: the leading byte names the class, the class places the fields. -/
theorem decode_encode_append {i : Instr} (hi : i.wellFormed = true) (rest : List Byte) :
    decode (encode i ++ rest) = .ok (i, rest) := by
  obtain ⟨b0, more, henc⟩ := List.exists_cons_of_length_pos (encode_length_pos i)
  have hclass : classify b0 = i.opcode := classify_leading hi (by rw [henc]; rfl)
  rw [henc, List.cons_append, decode, hclass, decodeOpcode_encode henc]

theorem decode_encode {i : Instr} (hi : i.wellFormed = true) : decode (encode i) = .ok (i, []) := by
  simpa using decode_encode_append hi []

namespace Machine

/-! ### What a fetch gives where an opcode stands -/

/-- Once the leading byte is there, whether all bytes of the opcode are there decides the fetch (R188). -/
theorem fetch_of_head {m : Memory} {k : Nat} {i : Instr} {b0 : Byte} (hi : i.wellFormed = true)
    (hhead : (encode i).head? = some b0) (hread : Cells.read m k = some b0) :
    (m.readBytes k (encode i).length = some (encode i) → fetch m k = some i) ∧
    (m.readBytes k (encode i).length = none → fetch m k = none) := by
  rw [fetch_of_leading hread, classify_leading hi hhead, ← encode_length]
  refine ⟨fun hall => ?_, fun hmissing => ?_⟩
  · simp only [hall, decode_encode hi]
  · simp only [hmissing]

theorem fetch_encode {m : Memory} {k : Nat} {i : Instr} (hi : i.wellFormed = true)
    (hall : m.readBytes k (encode i).length = some (encode i)) : fetch m k = some i := by
  obtain ⟨b0, more, henc⟩ := List.exists_cons_of_length_pos (encode_length_pos i)
  have hhead : (encode i).head? = some b0 := by rw [henc]; rfl
  have hread : Cells.read m k = some b0 := by
    simpa [henc] using ((Memory.readBytes_eq_some_iff _ _ _ _).mp hall).2 0 (encode_length_pos i)
  exact (fetch_of_head hi hhead hread).1 hall

/-- A well-formed opcode at IPOS runs when it is whole and raises StreamUnderrun when it is cut short. -/
theorem runsWhole_of_wellFormed {i : Instr} (hi : i.wellFormed = true) : RunsWhole i := by
  intro s hrun
  refine ⟨fun hall => decoderStep_opcode hrun (fetch_encode hi hall), fun b0 hhead hread hmissing => ?_⟩
  have hfetch : fetch s.dec.stream s.dec.ipos = none :=
    (fetch_of_head hi hhead hread).2 ((Memory.readBytes_eq_none_iff _ _ _).mpr hmissing)
  exact ⟨_, decoderStep_underrun hrun hfetch, rfl, rfl⟩

/-! ### Every decoder step completes -/

section
variable {s : State} (hr : s.dec.core.p.Readable s.dec.core.width)
include hr

theorem retireColour_next (k : Nat) (px : Pixel) :
    ∃ t, retireColour k px s = .next t ∧ DecoderStepped s t px k s.dec.core.runcnt true := by
  obtain ⟨t, ht⟩ := retireColour_completes (k := k) (px := px) hr
  exact ⟨t, ht, retireColour_stepped ht⟩

/-- A run-continuation step reads nothing and repeats PREV: an opcode of no bytes (R187). -/
theorem runContinuation_next :
    ∃ t, runContinuation s = .next t ∧
      DecoderStepped s t s.dec.core.prev 0 (s.dec.core.runcnt - 1) false := by
  obtain ⟨t, ht⟩ := retireRepeat_completes (k := 0) (rc := s.dec.core.runcnt - 1)
    (px := s.dec.core.prev) hr
  exact ⟨t, ht, retireRepeat_stepped ht⟩

/-- Every opcode ends in step 8, which completes where `advance` does. -/
theorem exec_completes (i : Instr) : ∃ t, exec i s = .next t := by
  cases i with
  | run f => exact retireRepeat_completes hr
  | rgb r g b => exact retireColour_completes hr
  | diff2 vr vg vb => exact retireColour_completes hr
  | index i => exact retireColour_completes hr
  | diff3 vr vg vb => exact retireColour_completes hr
  | diff vr vg vb => exact retireColour_completes hr
  | luma vg vgr vgb => exact retireColour_completes hr

end

theorem decoderStep_continues {s : State} (h : 0 < s.dec.core.runcnt.toNat) :
    decoderStep s = runContinuation s :=
  decoderStep_run fun h0 => by simp [h0] at h

/-- Settles O24: `exec_completes` and the two ways of `exec_next`; `runContinuation_next` for a run in
flight. -/
theorem everyOpcodeRetires : Obligations.EveryOpcodeRetires := by
  refine ⟨fun i s _ hr => ?_, fun s hpos hr => ?_⟩
  · obtain ⟨t, ht⟩ := exec_completes hr i
    rcases exec_next ht with ⟨px, hstep, hop⟩ | ⟨f, rfl, hstep⟩
    · exact ⟨t, px, _, ht, by rwa [decide_eq_true hop], fun _ => rfl⟩
    · exact ⟨t, _, f, ht, hstep, fun hop => absurd rfl hop⟩
  · obtain ⟨t, ht, hstep⟩ := runContinuation_next hr
    exact ⟨t, _, (decoderStep_continues hpos).trans ht, hstep⟩

/-- A run-continuation step neither looks at the stream nor changes it (R187). -/
theorem runContinuation_withStream {s t : State} (h : runContinuation s = .next t) (m : Memory) :
    runContinuation { s with dec := { s.dec with stream := m } } =
      .next { t with dec := { t.dec with stream := m } } := by
  obtain ⟨core, hfinish, rfl⟩ := retire_next_iff.mp h
  exact retire_next_iff.mpr ⟨core, hfinish, rfl⟩

/-- Settles O25: the step is `runContinuation`, whatever the stream; RUNCNT above 0 does not wrap. -/
theorem runContinuationStep : Obligations.RunContinuationStep := by
  intro s hpos hr
  obtain ⟨t, ht, hstep⟩ := runContinuation_next hr
  have hcount : (s.dec.core.runcnt - 1).toNat = s.dec.core.runcnt.toNat - 1 :=
    BitVec.toNat_sub_of_le (BitVec.le_def.mpr hpos)
  refine ⟨t, _, (decoderStep_continues hpos).trans ht, hcount, hstep, fun m => ?_⟩
  exact (decoderStep_continues (s := { s with dec := { s.dec with stream := m } }) hpos).trans
    (runContinuation_withStream ht m)

/-! ### The pixel of each opcode -/

/-- Settles O17: `retireColour_next` with the literal pixel. -/
theorem rgbResult : Obligations.RgbResult := fun _ _ _ _ hr =>
  ⟨runsWhole_of_wellFormed rfl, retireColour_next hr 4 _⟩

/-- Settles O22: `retireColour_next` with the slot's pixel. -/
theorem indexResult : Obligations.IndexResult := fun _ _ hr =>
  ⟨runsWhole_of_wellFormed rfl, retireColour_next hr 1 _⟩

/-- One channel of a delta form: the sign-extended field is added modulo 256 (R101, R167). -/
theorem toNat_add_sext {n : Nat} (hn : n ≤ 8) (x : Byte) (f : BitVec n) :
    (x + sext f).toNat = (x.toNat + signedField n f.toNat) % 256 := by
  rw [BitVec.toNat_add, sext_toNat hn]

/-- The shape DIFF, DIFF3 and DIFF2 share, at their lengths and field widths (R191, R192, R194). -/
theorem retireColour_deltaPixel {i j l : Nat} (hi : i ≤ 8) (hj : j ≤ 8) (hl : l ≤ 8) (k : Nat)
    (vr : BitVec i) (vg : BitVec j) (vb : BitVec l) {s : State}
    (hr : s.dec.core.p.Readable s.dec.core.width) :
    ∃ t px, retireColour k (deltaPixel s.dec.core.p.pred vr vg vb) s = .next t ∧
      DecoderStepped s t px k s.dec.core.runcnt true ∧
      px.r.toNat = (s.dec.core.p.pred.r.toNat + signedField i vr.toNat) % 256 ∧
      px.g.toNat = (s.dec.core.p.pred.g.toNat + signedField j vg.toNat) % 256 ∧
      px.b.toNat = (s.dec.core.p.pred.b.toNat + signedField l vb.toNat) % 256 := by
  obtain ⟨t, ht, hstep⟩ := retireColour_next hr k (deltaPixel s.dec.core.p.pred vr vg vb)
  exact ⟨t, _, ht, hstep, toNat_add_sext hi _ vr, toNat_add_sext hj _ vg, toNat_add_sext hl _ vb⟩

/-- Settles O18: the delta form of 7-bit fields in 3 bytes. -/
theorem diff2Result : Obligations.Diff2Result := fun vr vg vb _ hr =>
  ⟨runsWhole_of_wellFormed rfl,
    retireColour_deltaPixel (by decide) (by decide) (by decide) 3 vr vg vb hr⟩

/-- Settles O19: the delta form of 4-, 5- and 4-bit fields in 2 bytes. -/
theorem diff3Result : Obligations.Diff3Result := fun vr vg vb _ hr =>
  ⟨runsWhole_of_wellFormed rfl,
    retireColour_deltaPixel (by decide) (by decide) (by decide) 2 vr vg vb hr⟩

/-- Settles O20: the delta form of 2-bit fields in 1 byte. -/
theorem diffResult : Obligations.DiffResult := fun vr vg vb _ hr =>
  ⟨runsWhole_of_wellFormed rfl,
    retireColour_deltaPixel (by decide) (by decide) (by decide) 1 vr vg vb hr⟩

/-- Red or blue of LUMA: both deltas are added, and reducing between the sums changes nothing (R171). -/
theorem toNat_add_luma (x : Byte) (vg : BitVec 6) (v : BitVec 4) :
    (x + (sext v + sext vg)).toNat =
      (x.toNat + signedField 6 vg.toNat + signedField 4 v.toNat) % 256 := by
  rw [BitVec.toNat_add, BitVec.toNat_add, sext_toNat (by decide), sext_toNat (by decide)]
  omega

/-- Settles O21: green by `toNat_add_sext`, red and blue by `toNat_add_luma`. -/
theorem lumaResult : Obligations.LumaResult := by
  intro vg vgr vgb s hr
  obtain ⟨t, ht, hstep⟩ := retireColour_next hr 2 (lumaPixel s.dec.core.p.pred vg vgr vgb)
  exact ⟨runsWhole_of_wellFormed rfl, t, _, ht, hstep, toNat_add_luma _ vg vgr,
    toNat_add_sext (by decide) _ vg, toNat_add_luma _ vg vgb⟩

end Machine

end Sys2Proof
end

section
/-! Decoding and encoding undo each other, and the spec's own words for some of the formats. -/

namespace Sys2Proof

/-! ### What decodes is an encoding -/

/-! The tag of each class before the low bits of its leading byte is the byte itself (R91). -/

theorem tag_diff2 : ∀ b : Byte, classify b = .diff2 → 0b110#3 ++ b.extractLsb' 0 5 = b := by decide
theorem tag_rgb : ∀ b : Byte, classify b = .rgb → 0xFF = b := by decide
theorem tag_run : ∀ b : Byte, classify b = .run → 0b111#3 ++ b.extractLsb' 0 5 = b := by decide
theorem tag_index : ∀ b : Byte, classify b = .index → 0b000#3 ++ b.extractLsb' 0 5 = b := by decide
theorem tag_diff3 : ∀ b : Byte, classify b = .diff3 → 0b001#3 ++ b.extractLsb' 0 5 = b := by decide
theorem tag_diff : ∀ b : Byte, classify b = .diff →
    0b01#2 ++ b.extractLsb' 4 2 ++ b.extractLsb' 2 2 ++ b.extractLsb' 0 2 = b := by decide
theorem tag_luma : ∀ b : Byte, classify b = .luma → 0b10#2 ++ b.extractLsb' 0 6 = b := by decide

/-! A later byte is its fields put together. -/

theorem join_nibbles : ∀ b : Byte, (b.extractLsb' 4 4 ++ b.extractLsb' 0 4 : Byte) = b := by decide
theorem join_diff2_byte1 : ∀ b : Byte, (b.extractLsb' 2 6 ++ b.extractLsb' 0 2 : Byte) = b := by decide
theorem join_diff2_byte2 : ∀ b : Byte, (b.extractLsb' 1 7 ++ b.extractLsb' 0 1 : Byte) = b := by decide
theorem parts_vr : ∀ (x : BitVec 2) (y : BitVec 5),
    (x ++ y : BitVec 7).extractLsb' 5 2 = x ∧ (x ++ y : BitVec 7).extractLsb' 0 5 = y := by decide
theorem parts_vg : ∀ (x : BitVec 1) (y : BitVec 6),
    (x ++ y : BitVec 7).extractLsb' 6 1 = x ∧ (x ++ y : BitVec 7).extractLsb' 0 6 = y := by decide

/-- The bytes a class decodes are the encoding of what it answers, then what it leaves (R93 to R99). -/
theorem encode_of_decodeOpcode {b0 : Byte} {tail rest : List Byte} {i : Instr}
    (h : decodeOpcode (classify b0) b0 tail = .ok (i, rest)) : b0 :: tail = encode i ++ rest := by
  generalize hc : classify b0 = op at h
  unfold decodeOpcode at h
  split at h <;> cases h
  case h_1 => simp [decodeRgb, encode, tag_rgb b0 hc]
  case h_2 =>
    simp [decodeDiff2, encode, parts_vr, parts_vg, tag_diff2 b0 hc, join_diff2_byte1, join_diff2_byte2]
  case h_3 => simp [decodeRun, encode, tag_run b0 hc]
  case h_4 => simp only [decodeIndex, encode, tag_index b0 hc, List.cons_append, List.nil_append]
  case h_5 => simp [decodeDiff3, encode, tag_diff3 b0 hc, join_nibbles]
  case h_6 => simp [decodeDiff, encode, tag_diff b0 hc]
  case h_7 => simp [decodeLuma, encode, tag_luma b0 hc, join_nibbles]

theorem encode_of_decode {bytes rest : List Byte} {i : Instr} (h : decode bytes = .ok (i, rest)) :
    bytes = encode i ++ rest := by
  cases bytes with
  | nil => cases h
  | cons b0 tail => exact encode_of_decodeOpcode h

/-- Settles O1: the leading byte names the class, the class places the fields. -/
theorem decodeOfEncode : Obligations.DecodeOfEncode := fun _ rest hi => decode_encode_append hi rest

/-- Settles O2: `decode_wellFormed`, and the bytes class by class. -/
theorem encodeOfDecode : Obligations.EncodeOfDecode := fun _ _ _ h =>
  ⟨decode_wellFormed h, encode_of_decode h⟩

/-! ### The spec's words -/

/-- Settles O3: the 256 leading bytes. -/
theorem leadingBytePartition : Obligations.LeadingBytePartition := by
  unfold Obligations.LeadingBytePartition
  decide

/-- Settles O6: `encode_diff2_eq`, whose numbers are below 256. -/
theorem diff2Format : Obligations.Diff2Format := by
  intro vr vg vb
  have hr := vr.isLt
  have hg := vg.isLt
  have hb := vb.isLt
  refine ⟨_, _, _, encode_diff2_eq vr vg vb, ?_, ?_, ?_, ?_⟩ <;> simp only [BitVec.toNat_ofNat] <;> omega

/-- Settles O7: the decoding computes. -/
theorem opcodeWords : Obligations.OpcodeWords := by
  unfold Obligations.OpcodeWords
  decide

end Sys2Proof
end

section
/-! The invariants of a run: what a pixel step does to the counters, the cache and the history of its agent,
and that every step keeps them. -/

namespace Sys2Proof.Machine

open Sys2Proof

/-! ### What a pixel step can be -/

/-- The opcode of a pixel that is no run pixel: INDEX on a cache hit, else the chain's (R226, R228). -/
def Agent.colourOpcode (c : Agent) (px : Pixel) : Instr :=
  if c.slot (hash px) = px then .index (hash px) else selectOpcode (subPixel px c.p.pred) px

theorem colourOpcode_wellFormed (c : Agent) (px : Pixel) : (c.colourOpcode px).wellFormed = true := by
  unfold Agent.colourOpcode
  split
  · rfl
  · exact selectOpcode_wellFormed _ px

/-- The three ways of steps 2 to 6 on pixel `px`: the bytes emitted, RUNCNT after them, and whether the cache
is written (R221 to R228). -/
inductive Agent.Emits (c : Agent) (px : Pixel) : List Byte → BitVec 5 → Bool → Prop where
  | count (hp : px = c.prev) (h31 : c.runcnt + 1 ≠ 31) (hl : c.lastPixel = false) :
    Emits c px [] (c.runcnt + 1) false
  | flush (hp : px = c.prev) (h : c.runcnt + 1 = 31 ∨ c.lastPixel = true) :
    Emits c px (encode (.run c.runcnt)) 0 false
  | colour (hp : px ≠ c.prev) :
    Emits c px (pendingRun c.runcnt ++ encode (c.colourOpcode px)) 0 (decide (c.slot (hash px) ≠ px))

/-- Steps 2 to 6 on a pixel that is no run pixel, hit or miss. -/
theorem Encoder.opcodes_colour {e : Encoder} {px : Pixel} (hp : px ≠ e.core.prev) :
    e.opcodes px = e.after px (pendingRun e.core.runcnt ++ encode (e.core.colourOpcode px)) 0
      (decide (e.core.slot (hash px) ≠ px)) := by
  by_cases hslot : e.core.slot (hash px) = px
  · rw [e.opcodes_hit hp hslot, Agent.colourOpcode, if_pos hslot, decide_eq_false (not_not.mpr hslot)]
  · rw [e.opcodes_miss hp hslot, Agent.colourOpcode, if_neg hslot, decide_eq_true hslot]

theorem Encoder.opcodes_emits (px : Pixel) (e : Encoder) :
    ∃ out rc colour, e.core.Emits px out rc colour ∧ e.opcodes px = e.after px out rc colour := by
  by_cases hp : px = e.core.prev
  · by_cases hend : e.core.runcnt + 1 = 31 ∨ e.core.lastPixel = true
    · have ho := e.opcodes_flush hp hend
      rw [BitVec.add_sub_cancel] at ho
      exact ⟨_, _, _, .flush hp hend, ho⟩
    · obtain ⟨h31, hl⟩ := not_or.mp hend
      have hl' := Bool.eq_false_iff.mpr hl
      exact ⟨_, _, _, .count hp h31 hl', e.opcodes_count hp h31 hl'⟩
  · exact ⟨_, _, _, .colour hp, e.opcodes_colour hp⟩

/-- Everything an encoder step that completes does. -/
theorem encoderStep_emits {s t : State} (h : encoderStep s = .next t) :
    ∃ px out rc colour, s.enc.core.Emits px out rc colour ∧
      s.enc.pixels.readPixel s.enc.core.n.toNat = some px ∧ EncoderStepped s t px out rc colour := by
  obtain ⟨px, core, hx, hf, ht⟩ := encoderStep_next_iff.mp h
  obtain ⟨out, rc, colour, hemit, ho⟩ := s.enc.opcodes_emits px
  exact ⟨px, out, rc, colour, hemit, hx, encoderStep_stepped ho hf ht⟩

/-- What a fetch answers stands in the stream, byte by byte. -/
theorem readBytes_of_fetch {m : Memory} {k : Nat} {i : Instr} (h : fetch m k = some i) :
    i.wellFormed = true ∧ ∃ b0, Cells.read m k = some b0 ∧ classify b0 = i.opcode ∧
      m.readBytes k (classify b0).length = some (encode i) := by
  cases hread : Cells.read m k with
  | none => simp [fetch, fetchBytes, hread] at h
  | some b0 =>
    rw [fetch_of_leading hread] at h
    split at h
    · cases h
    · rename_i bytes hbytes
      split at h
      · rename_i j rest hdec
        obtain rfl := Option.some.inj h
        have hwf := decode_wellFormed hdec
        have henc := encode_of_decode hdec
        obtain ⟨hlen, hall⟩ := (Memory.readBytes_eq_some_iff _ _ _ _).mp hbytes
        have hhead : (encode j).head? = some b0 := by
          obtain ⟨c0, more, hmore⟩ := List.exists_cons_of_length_pos (encode_length_pos j)
          have h0 := hall 0 (by rw [henc, List.length_append]; have := encode_length_pos j; omega)
          simp only [henc, hmore, Nat.add_zero, hread, List.cons_append, List.getElem_cons_zero] at h0
          rw [hmore, List.head?_cons, ← h0]
        have hclass := classify_leading hwf hhead
        have hrest : rest = [] := by
          rw [hclass, ← encode_length, henc, List.length_append] at hlen
          exact List.length_eq_zero_iff.mp (by omega)
        rw [hrest, List.append_nil] at henc
        exact ⟨hwf, b0, rfl, hclass, henc ▸ hbytes⟩
      · cases h

/-- A decoder step that completes moves IPOS by at most 4 and leaves RUNCNT at most 30, or finds no whole
opcode at IPOS. -/
theorem decoderStep_outcome {s t : State} (h : decoderStep s = .next t) :
    (∃ px k rc colour, DecoderStepped s t px k rc colour ∧ k ≤ 4 ∧ rc.toNat ≤ 30) ∨
      (s.dec.core.runcnt = 0 ∧ fetch s.dec.stream s.dec.ipos = none ∧
        t = s.raiseDec .streamUnderrun) := by
  rcases decoderStep_next h with ⟨hpos, hstep⟩ | ⟨hrun, i, hi, hexec⟩ | hunder
  · exact .inl ⟨_, _, _, _, hstep, by omega, by bv_omega⟩
  · rcases exec_next hexec with ⟨px, hstep, -⟩ | ⟨f, rfl, hstep⟩
    · exact .inl ⟨_, _, _, _, hstep, encode_length_le i, by simp [hrun]⟩
    · exact .inl ⟨_, _, _, _, hstep, by omega, (runFieldOk_iff f).mp (readBytes_of_fetch hi).1⟩
  · exact .inr hunder

/-! ### An invariant of a BUSY agent -/

/-- The encoder after an accepted start (R275). -/
def Encoder.started (e : Encoder) : Encoder :=
  { e with core := { e.core.initial with state := .busy }, opos := 0 }

/-- The decoder after an accepted start (R275). -/
def Decoder.started (d : Decoder) : Decoder :=
  { d with core := { d.core.initial with state := .busy }, ipos := 0 }

/-- What an accepted start establishes and every pixel step keeps holds of the encoder whenever it is BUSY. -/
theorem step_keeps_busy_enc {P : Config → Encoder → Prop}
    (hstart : ∀ (cfg : Config) (e : Encoder), e.core.Startable cfg → P cfg e.started)
    (hpixel : ∀ s t : State, P s.cfg s.enc → encoderStep s = .next t → t.enc.core.state = .busy → P t.cfg t.enc)
    {s t : State} (h : s.enc.core.state = .busy → P s.cfg s.enc) (hst : step s = .next t)
    (hb : t.enc.core.state = .busy) : P t.cfg t.enc := by
  obtain ⟨hcfg, hcases⟩ := step_enc hst
  rcases hcases with he | ⟨hidle, hwrite⟩ | ⟨-, -, he⟩ | ⟨-, -, he⟩ | ⟨hbusy, -, rest, who, hpix⟩
  · rw [hcfg, he]
    exact h (he ▸ hb)
  · rcases hwrite with ⟨w, h', he⟩ | ⟨raw, he⟩ <;> rw [he] at hb <;> exact absurd hb hidle
  · rw [hcfg, he]
    rcases s.enc.start_cases s.cfg with ⟨hbusy, hs⟩ | ⟨-, -, hs⟩ | ⟨-, hok, hs⟩
    · rw [hs]
      exact h hbusy
    · rw [he, hs] at hb
      cases hb
    · rw [hs]
      exact hstart s.cfg s.enc hok
  · rw [he] at hb
    cases hb
  · exact hpixel { s with pending := rest, turn := who } t (h hbusy) hpix hb

theorem step_cfg {s t : State} (h : step s = .next t) : t.cfg = s.cfg := (step_enc h).1

/-- The same for the decoder. -/
theorem step_keeps_busy_dec {P : Config → Decoder → Prop}
    (hstart : ∀ (cfg : Config) (d : Decoder), d.core.Startable cfg → P cfg d.started)
    (hpixel : ∀ s t : State, P s.cfg s.dec → decoderStep s = .next t → t.dec.core.state = .busy → P t.cfg t.dec)
    {s t : State} (h : s.dec.core.state = .busy → P s.cfg s.dec) (hst : step s = .next t)
    (hb : t.dec.core.state = .busy) : P t.cfg t.dec := by
  have hcfg := step_cfg hst
  rcases step_dec hst with he | ⟨hidle, hwrite⟩ | ⟨-, -, he⟩ | ⟨-, -, he⟩ | ⟨hbusy, -, rest, who, hpix⟩
  · rw [hcfg, he]
    exact h (he ▸ hb)
  · rcases hwrite with ⟨w, h', he⟩ | ⟨bytes, he⟩ <;> rw [he] at hb <;> exact absurd hb hidle
  · rw [hcfg, he]
    rcases s.dec.start_cases s.cfg with ⟨hbusy, hs⟩ | ⟨-, -, hs⟩ | ⟨-, hok, hs⟩
    · rw [hs]
      exact h hbusy
    · rw [he, hs] at hb
      cases hb
    · rw [hs]
      exact hstart s.cfg s.dec hok
  · rw [he] at hb
    cases hb
  · exact hpixel { s with pending := rest, turn := who } t (h hbusy) hpix hb

/-! ### Counting -/

section
variable {cfg : Config} {c c' : Agent} {px : Pixel} {rc : BitVec 5} {colour : Bool}

/-- An agent that is still BUSY after a pixel step was so before it, and the pixel was not the last. -/
theorem AgentStepped.not_last (hs : AgentStepped c c' px rc colour) (hb : c'.state = .busy) :
    c.n.toNat + 1 ≠ c.width.toNat * c.height.toNat := by
  intro hl
  rw [hs.state, stateAfter, if_pos hl] at hb
  cases hb

/-- N does not wrap: 65535 by 65535 pixels are fewer than 2^32 (R28). -/
theorem AgentStepped.n_toNat (hs : AgentStepped c c' px rc colour)
    (hin : c.n.toNat < c.width.toNat * c.height.toNat) : c'.n.toNat = c.n.toNat + 1 := by
  have hmul : c.width.toNat * c.height.toNat ≤ 65535 * 65535 :=
    Nat.mul_le_mul (by have := c.width.isLt; omega) (by have := c.height.isLt; omega)
  rw [hs.n, BitVec.toNat_add, show (1 : BitVec 32).toNat = 1 from rfl]
  omega

theorem succ_mod_of_lt {n w : Nat} (h : n % w + 1 < w) : (n + 1) % w = n % w + 1 := by
  rw [← Nat.mod_add_mod, Nat.mod_eq_of_lt h]

theorem succ_mod_of_eq {n w : Nat} (h : n % w + 1 = w) : (n + 1) % w = 0 := by
  rw [← Nat.mod_add_mod, h, Nat.mod_self]

/-- The registers that count raster positions, one step on (R40 (a), (b), (g)). -/
theorem AgentStepped.counting (hs : AgentStepped c c' px rc colour) (hc : c.Counting cfg)
    (hrc : rc.toNat ≤ 30) (hb : c'.state = .busy) : c'.Counting cfg := by
  have hn := hs.n_toNat hc.inside
  have hnot := hs.not_last hb
  have hmod := Nat.mod_lt c.n.toNat hc.widthPos
  have hle := Nat.mod_le c.n.toNat c.width.toNat
  obtain ⟨-, -, hcol, hfirst, -⟩ := advance_ok_iff.mp hs.predictor
  have hin := hc.inside
  refine ⟨hs.width ▸ hc.widthPos, hs.height ▸ hc.heightPos, hs.width ▸ hc.widthFits, ?_, ?_, ?_,
    hs.runcnt ▸ hrc⟩
  · rw [hn, hs.width, hs.height]
    omega
  · rw [hn, hs.width, hcol]
    rcases Nat.lt_or_eq_of_le hmod with hx | hx
    · rw [colAfter_inside (hc.col ▸ hx), hc.col, succ_mod_of_lt hx]
    · rw [colAfter_last (hc.col ▸ hx), succ_mod_of_eq hx]
      rfl
  · rw [hn, hs.width, hfirst]
    rcases Nat.lt_or_eq_of_le hmod with hx | hx
    · rw [firstAfter_inside (hc.col ▸ hx), hc.first, decide_eq_decide]
      refine ⟨fun hlt => ?_, fun hlt => by omega⟩
      rwa [Nat.mod_eq_of_lt hlt] at hx
    · rw [firstAfter_last (hc.col ▸ hx), eq_comm, decide_eq_false_iff_not]
      omega

end

/-- The counters of an agent at the first pixel of an accepted run. -/
theorem counting_of_startable {cfg : Config} {c : Agent} (h : c.Startable cfg) :
    Agent.Counting cfg { c.initial with state := .busy } := by
  obtain ⟨hw, hh, hfit⟩ := h
  exact ⟨hw, hh, hfit, Nat.mul_pos hw hh, (Nat.zero_mod _).symm, (decide_eq_true hw).symm, by simp⟩

/-- What R238 bounds of an encoder: the emitted bytes by the pixels outside the pending run. -/
def Encoder.Accounted (e : Encoder) : Prop :=
  e.core.runcnt.toNat ≤ e.core.n.toNat ∧
    e.opos + 4 * e.core.runcnt.toNat ≤ 4 * e.core.n.toNat ∧
    (e.opos = 0 → e.core.runcnt.toNat = e.core.n.toNat)

/-- The counters and bytes of a BUSY encoder. -/
def Encoder.Counts (cfg : Config) (e : Encoder) : Prop := e.core.Counting cfg ∧ e.Accounted

/-- The counters and bytes of a BUSY decoder. -/
def Decoder.Counts (cfg : Config) (d : Decoder) : Prop :=
  d.core.Counting cfg ∧ d.ipos ≤ 4 * d.core.n.toNat

theorem pendingRun_length_le (rc : BitVec 5) : (pendingRun rc).length ≤ rc.toNat := by
  unfold pendingRun
  split
  · assumption
  · exact Nat.zero_le _

/-- A step counts its pixel into the run, or leaves no run and emits 1 to 4 bytes beside the pending RUN. -/
theorem Agent.Emits.count_or_bytes {c : Agent} {px : Pixel} {out : List Byte} {rc : BitVec 5}
    {colour : Bool} (h : c.Emits px out rc colour) (hrc : c.runcnt.toNat ≤ 30) :
    (rc.toNat = c.runcnt.toNat + 1 ∧ rc.toNat ≤ 30 ∧ out = [] ∧ c.lastPixel = false) ∨
      (rc = 0 ∧ 1 ≤ out.length ∧ out.length ≤ c.runcnt.toNat + 4) := by
  cases h with
  | count hp h31 hl => exact .inl ⟨by bv_omega, by bv_omega, rfl, hl⟩
  | flush hp h => exact .inr ⟨rfl, Nat.le_refl 1, by rw [encode_length]; exact Nat.le_add_left 1 _⟩
  | colour hp =>
    have h1 := pendingRun_length_le c.runcnt
    have h2 := encode_length_pos (c.colourOpcode px)
    have h3 := encode_length_le (c.colourOpcode px)
    exact .inr ⟨rfl, by rw [List.length_append]; omega, by rw [List.length_append]; omega⟩

/-- The bytes stay accounted for, after the last pixel too, which leaves no run in flight. -/
theorem EncoderStepped.accounted {cfg : Config} {s t : State} {px : Pixel} {out : List Byte}
    {rc : BitVec 5} {colour : Bool} (hs : EncoderStepped s t px out rc colour)
    (hemit : s.enc.core.Emits px out rc colour) (hc : s.enc.core.Counting cfg)
    (ha : s.enc.Accounted) :
    t.enc.Accounted ∧ t.enc.core.runcnt.toNat ≤ 30 ∧
      (s.enc.core.lastPixel = true → t.enc.core.runcnt = 0) := by
  obtain ⟨hle, hbytes, hnone⟩ := ha
  have hn := hs.core.n_toNat hc.inside
  rw [Encoder.Accounted, hn, hs.core.runcnt, hs.opos]
  rcases hemit.count_or_bytes hc.runcnt with ⟨hcount, h30, rfl, hlast⟩ | ⟨rfl, hpos, hlen⟩
  · rw [hcount]
    refine ⟨⟨by omega, by rw [List.length_nil]; omega, fun h0 => ?_⟩, by omega, by simp [hlast]⟩
    rw [List.length_nil] at h0
    rw [hnone h0]
  · rw [show (0 : BitVec 5).toNat = 0 from rfl]
    exact ⟨⟨by omega, by omega, fun h0 => by omega⟩, by omega, fun _ => rfl⟩

theorem Encoder.started_counts {cfg : Config} {e : Encoder} (h : e.core.Startable cfg) :
    e.started.Counts cfg :=
  ⟨counting_of_startable h, Nat.le_refl 0, Nat.le_refl 0, fun _ => rfl⟩

theorem Decoder.started_counts {cfg : Config} {d : Decoder} (h : d.core.Startable cfg) :
    d.started.Counts cfg :=
  ⟨counting_of_startable h, Nat.le_refl 0⟩

theorem encoderStep_counts {s t : State} (h : s.enc.Counts s.cfg) (hpix : encoderStep s = .next t)
    (hb : t.enc.core.state = .busy) : t.enc.Counts t.cfg := by
  obtain ⟨px, out, rc, colour, hemit, -, hs⟩ := encoderStep_emits hpix
  obtain ⟨ha, hrc, -⟩ := hs.accounted hemit h.1 h.2
  rw [hs.core.runcnt] at hrc
  exact ⟨hs.cfg ▸ hs.core.counting h.1 hrc hb, ha⟩

theorem decoderStep_counts {s t : State} (h : s.dec.Counts s.cfg) (hpix : decoderStep s = .next t)
    (hb : t.dec.core.state = .busy) : t.dec.Counts t.cfg := by
  rcases decoderStep_outcome hpix with ⟨px, k, rc, colour, hs, hk, hrc⟩ | ⟨-, -, rfl⟩
  · refine ⟨hs.cfg ▸ hs.core.counting h.1 hrc hb, ?_⟩
    rw [hs.ipos, hs.core.n_toNat h.1.inside]
    have := h.2
    omega
  · cases hb

/-- Settles O50: an accepted start counts from 0; a pixel step keeps the encoder's bytes accounted for, and
moves IPOS by the 4 bytes an opcode has at most. -/
theorem stepKeepsCounting : Obligations.StepKeepsCounting := fun _ _ h hst =>
  ⟨step_keeps_busy_enc (P := fun cfg e => e.Counts cfg) (fun _ _ => Encoder.started_counts)
      (fun _ _ => encoderStep_counts) h.enc hst,
    step_keeps_busy_dec (P := fun cfg d => d.Counts cfg) (fun _ _ => Decoder.started_counts)
      (fun _ _ => decoderStep_counts) h.dec hst⟩

/-! ### The cache -/

/-- The slot a step writes is the one its pixel hashes to (R154, R156). -/
theorem AgentStepped.cacheHashed {c c' : Agent} {px : Pixel} {rc : BitVec 5} {colour : Bool}
    (hs : AgentStepped c c' px rc colour) (h : c.CacheHashed) : c'.CacheHashed := by
  intro i
  rw [hs.cache]
  split
  · rename_i hi
    exact .inr hi.2.symm
  · exact h i

theorem cacheHashed_initial (c : Agent) : c.initial.CacheHashed := fun i => .inl (c.initial_slot i)

/-- Settles O51: a start clears the cache, a pixel step writes the slot of its pixel. -/
theorem stepKeepsCacheHashed : Obligations.StepKeepsCacheHashed := by
  intro s t h hst
  refine ⟨step_keeps_busy_enc (P := fun _ e => e.core.CacheHashed) ?_ ?_ h.enc hst,
    step_keeps_busy_dec (P := fun _ d => d.core.CacheHashed) ?_ ?_ h.dec hst⟩
  · exact fun _ e _ => cacheHashed_initial e.core
  · intro s t hc hpix _
    obtain ⟨px, out, rc, colour, -, -, hs⟩ := encoderStep_emits hpix
    exact hs.core.cacheHashed hc
  · exact fun _ d _ => cacheHashed_initial d.core
  · intro s t hc hpix hb
    rcases decoderStep_outcome hpix with ⟨px, k, rc, colour, hs, -, -⟩ | ⟨-, -, rfl⟩
    · exact hs.core.cacheHashed hc
    · cases hb

/-! ### The history of an agent -/

section
variable {cfg : Config} {c c' : Agent} {img : Nat → Pixel}

/-- The history and the counters of an agent are the iterator's invariant at N (R135). -/
theorem Agent.History.historyAt (h : c.History img) (hc : c.Counting cfg) :
    c.p.HistoryAt c.width img (c.n.toNat / c.width.toNat) (c.n.toNat % c.width.toNat) where
  inRow := Nat.mod_lt _ hc.widthPos
  col := hc.col
  first := by
    rw [hc.first, decide_eq_decide, Nat.div_eq_zero_iff]
    have := hc.widthPos
    omega
  left hpos := by
    rw [Nat.div_add_mod'] at hpos ⊢
    rw [h.left hpos, h.prev hpos]
  pred := by rw [Nat.div_add_mod', h.pred]
  rowBefore := h.rowBefore
  rowAbove j hj hw hy := h.rowAbove j hj hw (Nat.le_of_not_lt fun hlt => by
    rw [Nat.div_eq_of_lt hlt] at hy
    cases hy)
  rowFresh j hj hy := h.rowFresh j hj ((Nat.div_eq_zero_iff.mp hy).resolve_left
    (Nat.pos_iff_ne_zero.mp hc.widthPos))

/-- The converse, past the first pixel. -/
theorem Predictor.HistoryAt.history
    (h : c.p.HistoryAt c.width img (c.n.toNat / c.width.toNat) (c.n.toNat % c.width.toNat))
    (hpos : 0 < c.n.toNat) (hprev : c.prev = img (c.n.toNat - 1)) : c.History img where
  prevZero h0 := absurd h0 (Nat.pos_iff_ne_zero.mp hpos)
  prev _ := hprev
  left _ := by
    have hleft := h.left
    rw [Nat.div_add_mod'] at hleft
    rw [hleft hpos, hprev]
  pred := by
    have hpred := h.pred
    rwa [Nat.div_add_mod'] at hpred
  rowBefore := h.rowBefore
  rowAbove j hj hw hn := h.rowAbove j hj hw (Nat.div_pos hn (Nat.zero_lt_of_lt h.inRow))
  rowFresh j hj hn := h.rowFresh j hj (Nat.div_eq_of_lt hn)

/-- One pixel further the registers hold the history of the same image. -/
theorem AgentStepped.history {rc : BitVec 5} {colour : Bool}
    (hs : AgentStepped c c' (img c.n.toNat) rc colour) (hc : c.Counting cfg) (h : c.History img) :
    c'.History img := by
  have hn := hs.n_toNat hc.inside
  have hnext := (h.historyAt hc).advance_ok hs.predictor
  refine Predictor.HistoryAt.history ?_ (by omega) ?_
  · rwa [hn, hs.width]
  · rw [hs.prev, hn, Nat.add_sub_cancel]

/-- An agent at the first pixel has an empty history, of any image. -/
theorem history_initial (hw : 0 < c.width.toNat) (img : Nat → Pixel) :
    Agent.History img { c.initial with state := .busy } where
  prevZero _ := rfl
  prev h0 := absurd h0 (Nat.lt_irrefl 0)
  left h0 := absurd h0 (Nat.lt_irrefl 0)
  pred := rfl
  rowBefore j hj := by simp at hj
  rowAbove _ _ _ hn := absurd hn (Nat.not_le.mpr hw)
  rowFresh _ _ _ := rfl

/-- The rule of R132 looks at pixels before its position only. -/
theorem predictionRule_congr {w n : Nat} {img img' : Nat → Pixel} (hw : 0 < w)
    (h : ∀ k, k < n → img k = img' k) : predictionRule w img n = predictionRule w img' n := by
  unfold predictionRule
  split_ifs with h0 h1 h2
  · rfl
  · exact h _ (by omega)
  · exact h _ (by omega)
  · rw [h (n - 1) (by omega), h (n - w) (by omega), h (n - w - 1) (by omega)]

/-- A history speaks of the pixels below N only. -/
theorem Agent.History.congr {img' : Nat → Pixel} (h : c.History img) (hw : 0 < c.width.toNat)
    (heq : ∀ k, k < c.n.toNat → img k = img' k) : c.History img' := by
  have hdm := Nat.div_add_mod' c.n.toNat c.width.toNat
  exact {
    prevZero := h.prevZero
    prev := fun hpos => by rw [h.prev hpos, heq _ (by omega)]
    left := h.left
    pred := by rw [h.pred, predictionRule_congr hw heq]
    rowBefore := fun j hj => by rw [h.rowBefore j hj, heq _ (by omega)]
    rowAbove := fun j hj hjw hn => by
      have hrow : (c.n.toNat / c.width.toNat - 1) * c.width.toNat + c.width.toNat =
          c.n.toNat / c.width.toNat * c.width.toNat := by
        rw [← Nat.succ_mul, Nat.succ_eq_add_one, Nat.sub_add_cancel (Nat.div_pos hn hw)]
      rw [h.rowAbove j hj hjw hn, heq _ (by omega)]
    rowFresh := h.rowFresh }

end

/-! ### The image of an agent -/

/-- A pixel of the raw buffer is its three bytes, blue first (R62). -/
theorem Memory.readPixel_eq_some_iff {m : Memory} {n : Nat} {p : Pixel} :
    m.readPixel n = some p ↔ Cells.read m (3 * n) = some p.b ∧ Cells.read m (3 * n + 1) = some p.g ∧
      Cells.read m (3 * n + 2) = some p.r := by
  obtain ⟨r, g, b⟩ := p
  unfold Memory.readPixel
  split
  · rename_i hb hg hr
    simp only [hb, hg, hr, Option.some.injEq, Pixel.mk.injEq]
    tauto
  · rename_i hnone
    exact ⟨fun h => (by cases h), fun ⟨hb, hg, hr⟩ => (hnone _ _ _ hb hg hr).elim⟩

section
variable {s t : State} {px : Pixel} {k : Nat} {rc : BitVec 5} {colour : Bool}

theorem DecoderStepped.readPixel_here (hs : DecoderStepped s t px k rc colour) :
    t.dec.pixels.readPixel s.dec.core.n.toNat = some px :=
  Memory.readPixel_eq_some_iff.mpr ⟨hs.blue, hs.green, hs.red⟩

theorem DecoderStepped.readPixel_other (hs : DecoderStepped s t px k rc colour) {j : Nat}
    (hj : j ≠ s.dec.core.n.toNat) : t.dec.pixels.readPixel j = s.dec.pixels.readPixel j := by
  unfold Memory.readPixel
  rw [hs.output (3 * j) (by omega), hs.output (3 * j + 1) (by omega), hs.output (3 * j + 2) (by omega)]

theorem DecoderStepped.image_here (hs : DecoderStepped s t px k rc colour) :
    t.dec.image s.dec.core.n.toNat = px := by
  rw [Decoder.image, hs.readPixel_here, Option.getD_some]

theorem DecoderStepped.image_other (hs : DecoderStepped s t px k rc colour) {j : Nat}
    (hj : j ≠ s.dec.core.n.toNat) : t.dec.image j = s.dec.image j := by
  rw [Decoder.image, Decoder.image, hs.readPixel_other hj]

end

theorem EncoderStepped.image {s t : State} {px : Pixel} {out : List Byte} {rc : BitVec 5}
    {colour : Bool} (hs : EncoderStepped s t px out rc colour) : t.enc.image = s.enc.image := by
  funext n
  rw [Encoder.image, Encoder.image, hs.input]

theorem Encoder.image_of_readPixel {e : Encoder} {n : Nat} {px : Pixel}
    (h : e.pixels.readPixel n = some px) : e.image n = px := by
  rw [Encoder.image, h, Option.getD_some]

/-! ### The history of the state -/

/-- The history of a BUSY encoder, its pending run among it (R40 (c), (d), (f)). -/
def Encoder.Recalls (e : Encoder) : Prop :=
  e.core.History e.image ∧
    ∀ j, j < e.core.runcnt.toNat → e.image (e.core.n.toNat - 1 - j) = e.core.prev

/-- The history of a BUSY decoder, whose output holds every pixel below N. -/
def Decoder.Recalls (d : Decoder) : Prop :=
  d.core.History d.image ∧ ∀ k, k < d.core.n.toNat → (d.pixels.readPixel k).isSome

/-- A pending run grows by one pixel that equals PREV, or is gone after the step. -/
theorem EncoderStepped.run_pixels {s t : State} {px : Pixel} {out : List Byte} {rc : BitVec 5}
    {colour : Bool} (hs : EncoderStepped s t px out rc colour)
    (hemit : s.enc.core.Emits px out rc colour) (hn : t.enc.core.n.toNat = s.enc.core.n.toNat + 1)
    (hx : s.enc.image s.enc.core.n.toNat = px)
    (hrun : ∀ j, j < s.enc.core.runcnt.toNat →
      s.enc.image (s.enc.core.n.toNat - 1 - j) = s.enc.core.prev) :
    ∀ j, j < t.enc.core.runcnt.toNat → t.enc.image (t.enc.core.n.toNat - 1 - j) = t.enc.core.prev := by
  intro j hj
  rw [hs.core.runcnt] at hj
  rw [hn, Nat.add_sub_cancel, hs.image, hs.core.prev]
  cases hemit with
  | count hp h31 hl =>
    cases j with
    | zero => exact hx
    | succ j =>
      rw [show s.enc.core.n.toNat - (j + 1) = s.enc.core.n.toNat - 1 - j by omega,
        hrun j (by bv_omega), hp]
  | flush hp h => exact absurd hj (Nat.not_lt_zero j)
  | colour hp => exact absurd hj (Nat.not_lt_zero j)

theorem Encoder.started_recalls {cfg : Config} {e : Encoder} (h : e.core.Startable cfg) :
    e.started.Recalls :=
  ⟨history_initial h.1 _, fun j hj => absurd hj (Nat.not_lt_zero j)⟩

theorem Decoder.started_recalls {cfg : Config} {d : Decoder} (h : d.core.Startable cfg) :
    d.started.Recalls :=
  ⟨history_initial h.1 _, fun k hk => absurd hk (Nat.not_lt_zero k)⟩

theorem encoderStep_recalls {s t : State} (hc : s.enc.Counts s.cfg) (h : s.enc.Recalls)
    (hpix : encoderStep s = .next t) : t.enc.Recalls := by
  obtain ⟨px, out, rc, colour, hemit, hx, hs⟩ := encoderStep_emits hpix
  obtain rfl := Encoder.image_of_readPixel hx
  refine ⟨?_, hs.run_pixels hemit (hs.core.n_toNat hc.1.inside) rfl h.2⟩
  rw [hs.image]
  exact hs.core.history hc.1 h.1

/-- The decoder's image gains the pixel at N, of which its history up to there does not speak. -/
theorem DecoderStepped.recalls {cfg : Config} {s t : State} {px : Pixel} {k : Nat} {rc : BitVec 5}
    {colour : Bool} (hs : DecoderStepped s t px k rc colour) (hc : s.dec.core.Counting cfg)
    (h : s.dec.Recalls) : t.dec.Recalls := by
  obtain ⟨hhist, hwritten⟩ := h
  have hn := hs.core.n_toNat hc.inside
  obtain rfl := hs.image_here
  refine ⟨hs.core.history hc (hhist.congr hc.widthPos fun j hj => (hs.image_other (by omega)).symm),
    fun j hj => ?_⟩
  rcases Nat.lt_or_eq_of_le (Nat.le_of_lt_succ (hn ▸ hj)) with hlt | rfl
  · rw [hs.readPixel_other (by omega)]
    exact hwritten j hlt
  · rw [hs.readPixel_here]
    rfl

/-- Settles O52: the encoder's image stays as it is, the decoder's gains the pixel at N. -/
theorem stepKeepsHistory : Obligations.StepKeepsHistory := by
  intro s t hcount h hst
  refine ⟨fun hb => (step_keeps_busy_enc (P := fun cfg e => e.Counts cfg ∧ e.Recalls) ?_ ?_
      (fun hb => ⟨hcount.enc hb, h.enc hb⟩) hst hb).2,
    fun hb => (step_keeps_busy_dec (P := fun cfg d => d.Counts cfg ∧ d.Recalls) ?_ ?_
      (fun hb => ⟨hcount.dec hb, h.dec hb⟩) hst hb).2⟩
  · exact fun _ _ hok => ⟨Encoder.started_counts hok, Encoder.started_recalls hok⟩
  · exact fun _ _ hP hpix hb => ⟨encoderStep_counts hP.1 hpix hb, encoderStep_recalls hP.1 hP.2 hpix⟩
  · exact fun _ _ hok => ⟨Decoder.started_counts hok, Decoder.started_recalls hok⟩
  · intro s t hP hpix hb
    refine ⟨decoderStep_counts hP.1 hpix hb, ?_⟩
    rcases decoderStep_outcome hpix with ⟨px, k, rc, colour, hs, -, -⟩ | ⟨-, -, rfl⟩
    · exact hs.recalls hP.1.1 hP.2
    · cases hb

/-! ### What the invariants give -/

/-- Settles O53: the history of the iterator is readable. -/
theorem busyAgentCanAdvance : Obligations.BusyAgentCanAdvance := fun _ hc hh =>
  ⟨fun hb => ((hh.dec hb).1.historyAt (hc.dec hb).1).readable,
    fun hb => ((hh.enc hb).1.historyAt (hc.enc hb).1).readable⟩

theorem hostStep_ne_fault (op : HostOp) (s : State) (f : Fault) : hostStep op s ≠ .fault f := by
  cases op with
  | writeDimensions who w h => cases who <;> simp only [hostStep] <;> split <;> simp
  | supplyPixels raw => simp only [hostStep]; split <;> simp
  | supplyStream bytes => simp only [hostStep]; split <;> simp
  | start who => cases who <;> simp [hostStep]
  | hardwareReset who => cases who <;> simp [hostStep]
  | pass => simp [hostStep]

theorem advance_ne_error {w : BitVec 16} {p : Predictor} (h : p.Readable w) (px : Pixel) (f : Fault) :
    advance w px p ≠ .error f := by
  obtain ⟨p', hp⟩ := advance_completes h px
  simp [hp]

/-- Settles O54: the row entries are there by O53, the pixel by the host's duty. -/
theorem soundStateNeverFaults : Obligations.SoundStateNeverFaults := by
  intro s f hsound hready hf
  obtain ⟨hdec, henc⟩ := busyAgentCanAdvance s hsound.counting hsound.history
  rcases step_eq_cases s with ⟨op, rest, -, -, he⟩ | ⟨rest, -, ⟨-, hb, he⟩ | ⟨-, hb, he⟩ | ⟨-, he⟩⟩ <;>
    rw [he] at hf
  · exact hostStep_ne_fault _ _ _ hf
  · obtain ⟨px, hp⟩ := decoderStep_fault hf
    exact advance_ne_error (hdec hb) px f hp
  · rcases encoderStep_fault hf with ⟨hnone, -⟩ | ⟨px, hp⟩
    · have hsome := hready hb _ (hsound.counting.enc hb).1.inside
      rw [show s.enc.pixels.readPixel s.enc.core.n.toNat = none from hnone] at hsome
      cases hsome
    · exact advance_ne_error (henc hb) px f hp
  · cases hf

/-! ### Canonical form -/

/-- The encoder's memories and row are in canonical form. -/
structure Encoder.Canonical (e : Encoder) : Prop where
  stream : e.stream.wf
  pixels : e.pixels.wf
  row : Cells.wf e.core.p.row

/-- The decoder's memories and row are in canonical form. -/
structure Decoder.Canonical (d : Decoder) : Prop where
  stream : d.stream.wf
  pixels : d.pixels.wf
  row : Cells.wf d.core.p.row

theorem Encoder.Canonical.start {cfg : Config} {e : Encoder} (h : e.Canonical) :
    (e.start cfg).Canonical := by
  rcases e.start_cases cfg with ⟨-, he⟩ | ⟨-, -, he⟩ | ⟨-, -, he⟩ <;> rw [he]
  · exact h
  · exact ⟨h.stream, h.pixels, List.Pairwise.nil⟩
  · exact ⟨h.stream, h.pixels, List.Pairwise.nil⟩

theorem Decoder.Canonical.start {cfg : Config} {d : Decoder} (h : d.Canonical) :
    (d.start cfg).Canonical := by
  rcases d.start_cases cfg with ⟨-, hd⟩ | ⟨-, -, hd⟩ | ⟨-, -, hd⟩ <;> rw [hd]
  · exact h
  · exact ⟨h.stream, Memory.wf_unspecified _ _ h.pixels, List.Pairwise.nil⟩
  · exact ⟨h.stream, h.pixels, List.Pairwise.nil⟩

theorem encoderStep_canonical {s t : State} (hpix : encoderStep s = .next t) (h : s.enc.Canonical) :
    t.enc.Canonical := by
  obtain ⟨px, core, -, hf, rfl⟩ := encoderStep_next_iff.mp hpix
  obtain ⟨out, rc, colour, -, ho⟩ := s.enc.opcodes_emits px
  obtain ⟨p, hadv, rfl⟩ := finish_ok_iff.mp hf
  rw [ho] at hadv ⊢
  rw [Encoder.after_p] at hadv
  exact ⟨Memory.wf_writeBytes out _ _ h.stream, h.pixels, wf_row_advance hadv h.row⟩

/-- Every opcode ends in step 8, on the output as it stands. -/
theorem exec_eq_retire (i : Instr) (s : State) :
    ∃ px s', exec i s = retire px s' ∧ s'.dec.pixels = s.dec.pixels := by
  cases i <;> exact ⟨_, _, rfl, rfl⟩

theorem retire_pixels_wf {s t : State} {px : Pixel} (h : retire px s = .next t) (hp : s.dec.pixels.wf) :
    t.dec.pixels.wf := by
  obtain ⟨core, -, rfl⟩ := retire_next_iff.mp h
  exact Memory.wf_writePixel _ _ _ hp

theorem decoderStep_pixels_wf {s t : State} (h : decoderStep s = .next t) (hp : s.dec.pixels.wf) :
    t.dec.pixels.wf := by
  rcases decoderStep_next h with ⟨hpos, -⟩ | ⟨-, i, -, hexec⟩ | ⟨-, -, rfl⟩
  · rw [decoderStep_continues hpos] at h
    exact retire_pixels_wf h hp
  · obtain ⟨px, s', he, hs'⟩ := exec_eq_retire i s
    exact retire_pixels_wf (he ▸ hexec) (hs' ▸ hp)
  · exact Memory.wf_unspecified _ _ hp

theorem decoderStep_canonical {s t : State} (hpix : decoderStep s = .next t) (h : s.dec.Canonical) :
    t.dec.Canonical := by
  have hpixels := decoderStep_pixels_wf hpix h.pixels
  rcases decoderStep_outcome hpix with ⟨px, k, rc, colour, hs, -, -⟩ | ⟨-, -, rfl⟩
  · exact ⟨by rw [hs.input]; exact h.stream, hpixels, wf_row_advance hs.core.predictor h.row⟩
  · exact ⟨h.stream, hpixels, h.row⟩

theorem step_enc_canonical {s t : State} (h : s.enc.Canonical) (hst : step s = .next t) :
    t.enc.Canonical := by
  rcases (step_enc hst).2 with he | ⟨-, ⟨w, h', he⟩ | ⟨raw, he⟩⟩ | ⟨-, -, he⟩ | ⟨-, -, he⟩ |
    ⟨-, -, rest, who, hpix⟩
  · exact he ▸ h
  · rw [he]
    exact ⟨h.stream, h.pixels, h.row⟩
  · rw [he]
    exact ⟨h.stream, Memory.wf_ofBytes raw 0, h.row⟩
  · exact he ▸ h.start
  · rw [he]
    exact ⟨h.stream, h.pixels, List.Pairwise.nil⟩
  · exact encoderStep_canonical hpix h

theorem step_dec_canonical {s t : State} (h : s.dec.Canonical) (hst : step s = .next t) :
    t.dec.Canonical := by
  rcases step_dec hst with he | ⟨-, ⟨w, h', he⟩ | ⟨bytes, he⟩⟩ | ⟨-, -, he⟩ | ⟨-, -, he⟩ |
    ⟨-, -, rest, who, hpix⟩
  · exact he ▸ h
  · rw [he]
    exact ⟨h.stream, h.pixels, h.row⟩
  · rw [he]
    exact ⟨Memory.wf_ofBytes bytes 0, h.pixels, h.row⟩
  · exact he ▸ h.start
  · rw [he]
    exact ⟨h.stream, h.pixels, List.Pairwise.nil⟩
  · exact decoderStep_canonical hpix h

/-- Settles O49: each agent's memories and row, through everything a step can do to the agent. -/
theorem stepKeepsCanonical : Obligations.StepKeepsCanonical := by
  intro s t h hst
  have henc := step_enc_canonical ⟨h.encStream, h.encPixels, h.encRow⟩ hst
  have hdec := step_dec_canonical ⟨h.decStream, h.decPixels, h.decRow⟩ hst
  exact ⟨henc.pixels, henc.stream, hdec.stream, hdec.pixels, henc.row, hdec.row⟩

/-- Settles O48: the memories are empty and no agent is BUSY. -/
theorem resetIsSound : Obligations.ResetIsSound := by
  obtain ⟨hep, hes, hds, hdp, her, hdr⟩ := reset_memories_wf
  exact ⟨⟨hep, hes, hds, hdp, her, hdr⟩, ⟨nofun, nofun⟩, ⟨nofun, nofun⟩, ⟨nofun, nofun⟩⟩

end Sys2Proof.Machine
end

section
/-! The step and the host: which agent moves, what a pixel step depends on, and each host operation by what
it does to its agent. -/

namespace Sys2Proof.Machine

open Sys2Proof

/-! ### Which agent moves -/

theorem isBusy_decoder (s : State) : s.isBusy .decoder = true ↔ s.dec.core.state = .busy := by
  simp [State.isBusy]

theorem isBusy_encoder (s : State) : s.isBusy .encoder = true ↔ s.enc.core.state = .busy := by
  simp [State.isBusy]

/-- A BUSY decoder moves on its turn, and beside an encoder that is not BUSY. -/
theorem mover_of_busy_dec {s : State} (hb : s.dec.core.state = .busy)
    (h : s.turn = .decoder ∨ s.enc.core.state ≠ .busy) : s.mover = some .decoder := by
  have hd := (isBusy_decoder s).mpr hb
  unfold State.mover
  cases ht : s.turn with
  | decoder => rw [if_pos hd]
  | encoder =>
    have he : ¬s.isBusy .encoder = true :=
      (isBusy_encoder s).not.mpr (h.resolve_left (by simp [ht]))
    rw [if_neg he, AgentId.other, if_pos hd]

/-- The same for the encoder. -/
theorem mover_of_busy_enc {s : State} (hb : s.enc.core.state = .busy)
    (h : s.turn = .encoder ∨ s.dec.core.state ≠ .busy) : s.mover = some .encoder := by
  have he := (isBusy_encoder s).mpr hb
  unfold State.mover
  cases ht : s.turn with
  | encoder => rw [if_pos he]
  | decoder =>
    have hd : ¬s.isBusy .decoder = true :=
      (isBusy_decoder s).not.mpr (h.resolve_left (by simp [ht]))
    rw [if_neg hd, AgentId.other, if_pos he]

theorem mover_none_iff {s : State} :
    s.mover = none ↔ s.dec.core.state ≠ .busy ∧ s.enc.core.state ≠ .busy := by
  rw [ne_eq, ne_eq, ← isBusy_decoder s, ← isBusy_encoder s]
  unfold State.mover
  cases s.turn <;> rw [AgentId.other] <;> split_ifs <;> simp_all

/-- Settles O27: `mover_decoder`, `mover_encoder` and `mover_none_iff`. -/
theorem moverIsBusy : Obligations.MoverIsBusy := fun _ =>
  ⟨mover_decoder, mover_encoder, mover_none_iff⟩

/-! ### The step by what is asked -/

theorem step_of_mover_dec {s : State} (hp : s.pending = []) (hm : s.mover = some .decoder) :
    step s = decoderStep (s.passTurn .decoder) := by
  simp only [step, machineStep, hp, coreStep, hm]

theorem step_of_mover_enc {s : State} (hp : s.pending = []) (hm : s.mover = some .encoder) :
    step s = encoderStep (s.passTurn .encoder) := by
  simp only [step, machineStep, hp, coreStep, hm]

theorem step_of_mover_none {s : State} (hp : s.pending = []) (hm : s.mover = none) :
    step s = .next s := by
  simp only [step, machineStep, hp, coreStep, hm]

theorem step_of_host {s : State} {op : HostOp} {rest : List HostOp} (hp : s.pending = op :: rest)
    (ho : op ≠ .pass) : step s = hostStep op { s with pending := rest } := by
  cases op with
  | pass => exact absurd rfl ho
  | _ => simp only [step, machineStep, hp]

/-! ### What a pixel step depends on -/

/-- The end of a decoder step looks at the decoder only, and not at its stream. -/
theorem retire_frame {px : Pixel} {s s' t : State} (h : retire px s = .next t) {m : Memory}
    (hd : s'.dec = { s.dec with stream := m }) :
    retire px s' = .next { s' with dec := { t.dec with stream := m } } := by
  obtain ⟨core, hfinish, rfl⟩ := retire_next_iff.mp h
  exact retire_next_iff.mpr ⟨core, by rw [hd]; exact hfinish, by rw [hd]⟩

theorem exec_frame {i : Instr} {s s' t : State} (h : exec i s = .next t) {m : Memory}
    (hd : s'.dec = { s.dec with stream := m }) :
    exec i s' = .next { s' with dec := { t.dec with stream := m } } := by
  obtain ⟨cfg, enc, dec, pending, turn⟩ := s'
  subst hd
  cases i with
  | run f => exact retire_frame h rfl
  | rgb r g b => exact retire_frame h rfl
  | diff2 vr vg vb => exact retire_frame h rfl
  | index i => exact retire_frame h rfl
  | diff3 vr vg vb => exact retire_frame h rfl
  | diff vr vg vb => exact retire_frame h rfl
  | luma vg vgr vgb => exact retire_frame h rfl

/-- A decoder step looks at the decoder only, and at its stream only through the fetch at IPOS. -/
theorem decoderStep_frame {s s' t : State} (h : decoderStep s = .next t) {m : Memory}
    (hd : s'.dec = { s.dec with stream := m }) (hf : fetch m s.dec.ipos = fetch s.dec.stream s.dec.ipos) :
    decoderStep s' = .next { s' with dec := { t.dec with stream := m } } := by
  obtain ⟨cfg, enc, dec, pending, turn⟩ := s'
  subst hd
  rcases decoderStep_next h with ⟨hpos, -⟩ | ⟨hrun, i, hi, hexec⟩ | ⟨hrun, hnone, rfl⟩
  · rw [decoderStep_continues hpos] at h
    exact (decoderStep_continues (by exact hpos)).trans (retire_frame h rfl)
  · exact (decoderStep_opcode (by exact hrun) (by exact hf.trans hi)).trans (exec_frame hexec rfl)
  · exact decoderStep_underrun (by exact hrun) (by exact hf.trans hnone)

/-- No decoder step writes the stream. -/
theorem decoderStep_stream {s t : State} (h : decoderStep s = .next t) :
    t.dec.stream = s.dec.stream := by
  rcases decoderStep_outcome h with ⟨px, k, rc, colour, hs, -, -⟩ | ⟨-, -, rfl⟩
  · exact hs.input
  · rfl

/-- A decoder step is a function of the decoder, and changes nothing else. -/
theorem decoderStep_congr {s s' t : State} (h : decoderStep s = .next t) (hd : s'.dec = s.dec) :
    decoderStep s' = .next { s' with dec := t.dec } := by
  have hframe := decoderStep_frame h (m := s.dec.stream) hd rfl
  rwa [← decoderStep_stream h] at hframe

theorem encoderStep_congr {s s' t : State} (h : encoderStep s = .next t) (he : s'.enc = s.enc) :
    encoderStep s' = .next { s' with enc := t.enc } := by
  obtain ⟨px, core, hx, hf, rfl⟩ := encoderStep_next_iff.mp h
  exact encoderStep_next_iff.mpr ⟨px, core, by rw [he]; exact hx, by rw [he]; exact hf, by rw [he]⟩

theorem decoderStep_changes {s t : State} (h : decoderStep s = .next t) : t = { s with dec := t.dec } :=
  Host.Outcome.next.inj (h.symm.trans (decoderStep_congr h rfl))

theorem encoderStep_changes {s t : State} (h : encoderStep s = .next t) : t = { s with enc := t.enc } :=
  Host.Outcome.next.inj (h.symm.trans (encoderStep_congr h rfl))

/-- `pass` is a step with nothing asked, the later operations kept. -/
theorem step_pass {s t : State} {rest : List HostOp} (h : step { s with pending := [] } = .next t) :
    step { s with pending := .pass :: rest } = .next { t with pending := rest } := by
  show coreStep { s with pending := rest } = _
  have hcore : coreStep { s with pending := [] } = .next t := h
  have hmover : ∀ l, ({ s with pending := l } : State).mover = s.mover := fun _ => rfl
  simp only [coreStep, hmover] at hcore ⊢
  cases hm : s.mover with
  | none =>
    simp only [hm] at hcore ⊢
    rw [← Host.Outcome.next.inj hcore]
  | some who =>
    cases who with
    | decoder =>
      simp only [hm] at hcore ⊢
      rw [decoderStep_congr (s' := ({ s with pending := rest } : State).passTurn .decoder) hcore rfl,
        decoderStep_changes hcore]
      rfl
    | encoder =>
      simp only [hm] at hcore ⊢
      rw [encoderStep_congr (s' := ({ s with pending := rest } : State).passTurn .encoder) hcore rfl,
        encoderStep_changes hcore]
      rfl

/-- Settles O26: what decodes is an encoding, which is fetched whole; the other clauses by the mover. -/
theorem stepRunsDecoded : Obligations.StepRunsDecoded := by
  refine ⟨fun s bytes i hp hm hrun hdec hread => ?_, fun _ => step_of_mover_dec, fun _ => step_of_mover_enc,
    fun _ => step_of_mover_none, fun _ _ _ => step_pass⟩
  have henc : bytes = encode i := by simpa using encode_of_decode hdec
  rw [henc] at hread
  rw [step_of_mover_dec hp hm]
  exact decoderStep_opcode hrun (fetch_encode (decode_wellFormed hdec) hread)

/-! ### What a decoder step reads -/

theorem readBytes_congr {m m' : Memory} {k n : Nat}
    (h : ∀ j, j < n → Cells.read m' (k + j) = Cells.read m (k + j)) :
    m'.readBytes k n = m.readBytes k n := by
  induction n generalizing k with
  | zero => rfl
  | succ n ih =>
    have h0 : Cells.read m' k = Cells.read m k := h 0 (Nat.succ_pos n)
    have htail : m'.readBytes (k + 1) n = m.readBytes (k + 1) n := ih fun j hj => by
      rw [Nat.add_right_comm, Nat.add_assoc]
      exact h (j + 1) (Nat.succ_lt_succ hj)
    simp only [Memory.readBytes, h0, htail]

/-- A fetch looks at the bytes of its opcode only (R75). -/
theorem fetch_congr {m m' : Memory} {k : Nat} {b0 : Byte} (h0 : Cells.read m k = some b0)
    (h : ∀ j, j < (classify b0).length → Cells.read m' (k + j) = Cells.read m (k + j)) :
    fetch m' k = fetch m k := by
  have h0' : Cells.read m' k = some b0 := by
    rw [← h0]
    exact h 0 (opcode_length_pos _)
  rw [fetch_of_leading h0, fetch_of_leading h0', readBytes_congr h]

/-- As many bytes as the class wants do decode (R103). -/
theorem decodeOpcode_of_length {op : Opcode} {tail : List Byte} (b0 : Byte)
    (h : tail.length + 1 = op.length) : ∃ i, decodeOpcode op b0 tail = .ok (i, []) := by
  cases op with
  | rgb =>
    obtain ⟨b1, b2, b3, rfl⟩ := List.length_eq_three.mp (Nat.succ.inj h)
    exact ⟨_, rfl⟩
  | diff2 =>
    obtain ⟨b1, b2, rfl⟩ := List.length_eq_two.mp (Nat.succ.inj h)
    exact ⟨_, rfl⟩
  | run =>
    obtain rfl := List.length_eq_zero_iff.mp (Nat.succ.inj h)
    exact ⟨_, rfl⟩
  | index =>
    obtain rfl := List.length_eq_zero_iff.mp (Nat.succ.inj h)
    exact ⟨_, rfl⟩
  | diff3 =>
    obtain ⟨b1, rfl⟩ := List.length_eq_one_iff.mp (Nat.succ.inj h)
    exact ⟨_, rfl⟩
  | diff =>
    obtain rfl := List.length_eq_zero_iff.mp (Nat.succ.inj h)
    exact ⟨_, rfl⟩
  | luma =>
    obtain ⟨b1, rfl⟩ := List.length_eq_one_iff.mp (Nat.succ.inj h)
    exact ⟨_, rfl⟩

/-- With all its bytes there an opcode is fetched. -/
theorem fetch_isSome_of_readBytes {m : Memory} {k : Nat} {b0 : Byte} {bytes : List Byte}
    (h0 : Cells.read m k = some b0) (hr : m.readBytes k (classify b0).length = some bytes) :
    (fetch m k).isSome := by
  obtain ⟨hlen, hall⟩ := (Memory.readBytes_eq_some_iff _ _ _ _).mp hr
  have hpos := opcode_length_pos (classify b0)
  obtain ⟨c0, tail, rfl⟩ := List.exists_cons_of_length_pos (hlen ▸ hpos)
  obtain rfl : c0 = b0 := Option.some.inj ((hall 0 (hlen ▸ hpos)).symm.trans h0)
  obtain ⟨i, hdec⟩ := decodeOpcode_of_length c0 hlen
  rw [fetch_of_leading h0]
  simp only [hr, decode, hdec]
  rfl

/-- A fetch fails where a byte of the opcode is missing (R263). -/
theorem fetch_eq_none_iff {m : Memory} {k : Nat} :
    fetch m k = none ↔ Cells.read m k = none ∨
      ∃ b0 j, Cells.read m k = some b0 ∧ j < (classify b0).length ∧ Cells.read m (k + j) = none := by
  cases h0 : Cells.read m k with
  | none => simp [fetch, fetchBytes, h0]
  | some b0 =>
    have hmissing := Memory.readBytes_eq_none_iff m k (classify b0).length
    constructor
    · intro hf
      refine .inr ?_
      cases hr : m.readBytes k (classify b0).length with
      | none =>
        obtain ⟨j, hj, hnone⟩ := hmissing.mp hr
        exact ⟨b0, j, rfl, hj, hnone⟩
      | some bytes =>
        have hsome := fetch_isSome_of_readBytes h0 hr
        rw [hf] at hsome
        cases hsome
    · rintro (h | ⟨b, j, hb, hj, hnone⟩)
      · cases h
      · obtain rfl := Option.some.inj hb
        rw [fetch_of_leading h0, hmissing.mpr ⟨j, hj, hnone⟩]

/-- Settles O28: the fetch fails, and the step raises StreamUnderrun. -/
theorem underrunAbandonsStep : Obligations.UnderrunAbandonsStep := by
  intro s hp hm hrun hmissing
  refine ⟨s.dec.pixels.unspecified s.dec.core.draw, ?_⟩
  rw [step_of_mover_dec hp hm]
  exact decoderStep_underrun hrun (fetch_eq_none_iff.mpr hmissing)

/-- Settles O29: the fetch is the same, and the rest of the step does not look at the stream. -/
theorem stepReadsOnlyItsOpcode : Obligations.StepReadsOnlyItsOpcode := by
  intro s t b0 m hp hm h0 hagree hst
  rw [step_of_mover_dec hp hm] at hst
  refine ⟨t.dec.pixels, (step_of_mover_dec (by exact hp) (by exact hm)).trans ?_, fun _ => rfl⟩
  rw [decoderStep_frame (m := m) hst rfl (fetch_congr h0 hagree), decoderStep_changes hst]
  rfl

theorem exec_ipos {i : Instr} {s t : State} (h : exec i s = .next t) :
    t.dec.ipos = s.dec.ipos + (encode i).length := by
  rcases exec_next h with ⟨px, hs, -⟩ | ⟨f, rfl, hs⟩ <;> exact hs.ipos

theorem decoderStep_ipos {s t : State} (h : decoderStep s = .next t) :
    t.dec.ipos = s.dec.ipos ∨
      ∃ b0, Cells.read s.dec.stream s.dec.ipos = some b0 ∧
        t.dec.ipos = s.dec.ipos + (classify b0).length := by
  rcases decoderStep_next h with ⟨-, hs⟩ | ⟨-, i, hi, hexec⟩ | ⟨-, -, rfl⟩
  · exact .inl hs.ipos
  · obtain ⟨-, b0, hread, hclass, -⟩ := readBytes_of_fetch hi
    exact .inr ⟨b0, hread, by rw [exec_ipos hexec, encode_length, hclass]⟩
  · exact .inl rfl

/-- Settles O30: an opcode moves IPOS by its length, every other step leaves it. -/
theorem cursorMovesForward : Obligations.CursorMovesForward := by
  intro s t hp hst
  cases hm : s.mover with
  | none =>
    rw [step_of_mover_none hp hm] at hst
    exact .inl (Host.Outcome.next.inj hst ▸ rfl)
  | some who =>
    cases who with
    | decoder =>
      rw [step_of_mover_dec hp hm] at hst
      exact decoderStep_ipos (s := s.passTurn .decoder) hst
    | encoder =>
      rw [step_of_mover_enc hp hm] at hst
      exact .inl (by rw [encoderStep_changes hst]; rfl)

/-! ### The agents and each other -/

/-- Settles O56: what a step can do to each agent, and that a pixel step changes its own agent only. -/
theorem agentsShareNothing : Obligations.AgentsShareNothing := by
  intro s t hst
  refine ⟨?_, step_cfg hst, fun hp hm => ?_, fun hp hm => ?_⟩
  · rcases step_eq_cases s with ⟨op, rest, -, -, he⟩ | ⟨rest, -, ⟨-, -, he⟩ | ⟨-, -, he⟩ | ⟨-, he⟩⟩ <;>
      rw [he] at hst
    · rcases hostStep_next hst with ⟨e, rfl, -⟩ | ⟨d, rfl, -⟩ | ⟨-, rfl⟩
      · exact .inr rfl
      · exact .inl rfl
      · exact .inl rfl
    · exact .inl (by rw [decoderStep_changes hst])
    · exact .inr (by rw [encoderStep_changes hst])
    · cases hst
      exact .inl rfl
  · rw [step_of_mover_dec hp hm] at hst
    rw [decoderStep_changes hst]
    rfl
  · rw [step_of_mover_enc hp hm] at hst
    rw [encoderStep_changes hst]
    rfl

/-- Settles O57: a pixel step is a function of its agent, which moves beside the replacement too. -/
theorem agentsIgnoreEachOther : Obligations.AgentsIgnoreEachOther := by
  refine ⟨fun s t e hp hm hturn hst => ⟨t.dec.pixels, ?_, fun _ => rfl⟩, fun s t d hp hm hturn hst => ?_⟩
  · rw [step_of_mover_dec hp hm] at hst
    have hm' : ({ s with enc := e } : State).mover = some .decoder :=
      mover_of_busy_dec (s := { s with enc := e }) (mover_decoder hm :) hturn
    rw [step_of_mover_dec (by exact hp) hm',
      decoderStep_congr (s' := ({ s with enc := e } : State).passTurn .decoder) hst rfl,
      decoderStep_changes hst]
    rfl
  · rw [step_of_mover_enc hp hm] at hst
    have hm' : ({ s with dec := d } : State).mover = some .encoder :=
      mover_of_busy_enc (s := { s with dec := d }) (mover_encoder hm :) hturn
    rw [step_of_mover_enc (by exact hp) hm',
      encoderStep_congr (s' := ({ s with dec := d } : State).passTurn .encoder) hst rfl,
      encoderStep_changes hst]
    rfl

theorem ne_fault_of_busy {c : Agent} (hb : c.state = .busy) : c.state ≠ .fault := by
  rw [hb]
  decide

/-- Settles O55: every other thing a step can do to an agent that is not BUSY leaves STATE. -/
theorem faultLeftOnlyByHost : Obligations.FaultLeftOnlyByHost := by
  intro s t hst
  refine ⟨fun hf hleft => ?_, fun hf hleft => ?_⟩
  · rcases step_dec hst with he | ⟨-, ⟨w, h, he⟩ | ⟨bytes, he⟩⟩ | ⟨rest, hp, -⟩ | ⟨rest, hp, -⟩ | ⟨hb, -⟩
    · exact absurd hf (he ▸ hleft)
    · exact absurd hf (by rw [he] at hleft; exact hleft)
    · exact absurd hf (by rw [he] at hleft; exact hleft)
    · exact ⟨rest, .inl hp⟩
    · exact ⟨rest, .inr hp⟩
    · exact absurd hf (ne_fault_of_busy hb)
  · rcases (step_enc hst).2 with he | ⟨-, ⟨w, h, he⟩ | ⟨raw, he⟩⟩ | ⟨rest, hp, -⟩ | ⟨rest, hp, -⟩ | ⟨hb, -⟩
    · exact absurd hf (he ▸ hleft)
    · exact absurd hf (by rw [he] at hleft; exact hleft)
    · exact absurd hf (by rw [he] at hleft; exact hleft)
    · exact ⟨rest, .inl hp⟩
    · exact ⟨rest, .inr hp⟩
    · exact absurd hf (ne_fault_of_busy hb)

/-! ### Start and the hardware reset -/

section
variable {cfg : Config}

theorem Decoder.start_accepted {d : Decoder} (hb : d.core.state ≠ .busy) (hok : d.core.Startable cfg) :
    d.start cfg = d.started := by
  rcases d.start_cases cfg with ⟨h, -⟩ | ⟨-, h, -⟩ | ⟨-, -, h⟩
  · exact absurd h hb
  · exact absurd hok h
  · exact h

theorem Encoder.start_accepted {e : Encoder} (hb : e.core.state ≠ .busy) (hok : e.core.Startable cfg) :
    e.start cfg = e.started := by
  rcases e.start_cases cfg with ⟨h, -⟩ | ⟨-, h, -⟩ | ⟨-, -, h⟩
  · exact absurd h hb
  · exact absurd hok h
  · exact h

theorem not_startable {c : Agent} (h : c.width = 0 ∨ c.height = 0 ∨ cfg.maxWidth.toNat < c.width.toNat) :
    ¬c.Startable cfg := by
  rintro ⟨hw, hh, hfit⟩
  rcases h with h | h | h
  · simp [h] at hw
  · simp [h] at hh
  · omega

theorem Decoder.start_refused {d : Decoder} (hb : d.core.state ≠ .busy) (hno : ¬d.core.Startable cfg) :
    d.start cfg =
      ({ d with core := d.core.unspecified .decoder, ipos := freeCursor .decoder d.core } : Decoder).raise
        (if d.core.width = 0 ∨ d.core.height = 0 then .badDimensions else .initFailure) := by
  rcases d.start_cases cfg with ⟨h, -⟩ | ⟨-, -, h⟩ | ⟨-, h, -⟩
  · exact absurd h hb
  · exact h
  · exact absurd h hno

theorem Encoder.start_refused {e : Encoder} (hb : e.core.state ≠ .busy) (hno : ¬e.core.Startable cfg) :
    e.start cfg =
      { e with
        core := (e.core.unspecified .encoder).raise
          (if e.core.width = 0 ∨ e.core.height = 0 then .badDimensions else .initFailure)
        opos := freeCursor .encoder e.core } := by
  rcases e.start_cases cfg with ⟨h, -⟩ | ⟨-, -, h⟩ | ⟨-, h, -⟩
  · exact absurd h hb
  · exact h
  · exact absurd h hno

theorem Decoder.start_busy {d : Decoder} (hb : d.core.state = .busy) : d.start cfg = d := by
  rcases d.start_cases cfg with ⟨-, h⟩ | ⟨h, -⟩ | ⟨h, -⟩
  · exact h
  · exact absurd hb h
  · exact absurd hb h

theorem Encoder.start_busy {e : Encoder} (hb : e.core.state = .busy) : e.start cfg = e := by
  rcases e.start_cases cfg with ⟨-, h⟩ | ⟨h, -⟩ | ⟨h, -⟩
  · exact h
  · exact absurd hb h
  · exact absurd hb h

end

section
variable {s : State} {rest : List HostOp}

theorem step_start_dec (hp : s.pending = .start .decoder :: rest) :
    step s = .next { s with pending := rest, dec := s.dec.start s.cfg } :=
  step_of_host hp nofun

theorem step_start_enc (hp : s.pending = .start .encoder :: rest) :
    step s = .next { s with pending := rest, enc := s.enc.start s.cfg } :=
  step_of_host hp nofun

end

/-- Settles O42: the started agent, register by register. -/
theorem startAccepted : Obligations.StartAccepted := by
  refine ⟨fun s rest hp hb hw hh hfit => ⟨_, step_start_dec hp, ?_⟩,
    fun s rest hp hb hw hh hfit => ⟨_, step_start_enc hp, ?_⟩⟩
  · rw [Decoder.start_accepted hb ⟨hw, hh, hfit⟩]
    exact ⟨rfl, rfl, rfl, rfl, rfl, rfl, rfl, s.dec.core.initial_slot, rfl, rfl, rfl, rfl, fun _ => rfl,
      rfl, rfl, rfl, rfl, rfl⟩
  · rw [Encoder.start_accepted hb ⟨hw, hh, hfit⟩]
    exact ⟨rfl, rfl, rfl, rfl, rfl, rfl, rfl, s.enc.core.initial_slot, rfl, rfl, rfl, rfl, fun _ => rfl,
      rfl, rfl, rfl, rfl, rfl⟩

/-- Settles O43: the refused agent, register by register. -/
theorem startRefused : Obligations.StartRefused := by
  refine ⟨fun s rest hp hb hbad => ⟨_, step_start_dec hp, ?_⟩,
    fun s rest hp hb hbad => ⟨_, step_start_enc hp, ?_⟩⟩
  · rw [Decoder.start_refused hb (not_startable hbad)]
    refine ⟨rfl, rfl, rfl, rfl, rfl, rfl, rfl, rfl, fun a => ?_⟩
    rw [Decoder.raise_pixels, Memory.read_unspecified, Option.isSome_map]
  · rw [Encoder.start_refused hb (not_startable hbad)]
    exact ⟨rfl, rfl, rfl, rfl, rfl, rfl, rfl, rfl, rfl⟩

/-- Settles O44: a start answers the agent as it is, and each write of a BUSY agent is refused. -/
theorem busyAgentIsLeftAlone : Obligations.BusyAgentIsLeftAlone := by
  intro s rest w h bytes
  refine ⟨fun hb hp => ?_, fun hb hp => ?_, fun hb hp => ?_, fun hb hp => ?_, fun hb hp => ?_,
    fun hb hp => ?_⟩
  · rw [step_start_dec hp, Decoder.start_busy hb]
  · rw [step_start_enc hp, Encoder.start_busy hb]
  · exact (step_of_host hp nofun).trans (if_pos hb)
  · exact (step_of_host hp nofun).trans (if_pos hb)
  · exact (step_of_host hp nofun).trans (if_pos hb)
  · exact (step_of_host hp nofun).trans (if_pos hb)

section
variable {s : State} {rest : List HostOp}

theorem step_writeDimensions_dec {w h : BitVec 16} (hb : s.dec.core.state ≠ .busy)
    (hp : s.pending = .writeDimensions .decoder w h :: rest) :
    step s = .next { s with pending := rest, dec := { s.dec with core := s.dec.core.withDimensions w h } } :=
  (step_of_host hp nofun).trans (if_neg hb)

theorem step_writeDimensions_enc {w h : BitVec 16} (hb : s.enc.core.state ≠ .busy)
    (hp : s.pending = .writeDimensions .encoder w h :: rest) :
    step s = .next { s with pending := rest, enc := { s.enc with core := s.enc.core.withDimensions w h } } :=
  (step_of_host hp nofun).trans (if_neg hb)

theorem step_supplyStream {bytes : List Byte} (hb : s.dec.core.state ≠ .busy)
    (hp : s.pending = .supplyStream bytes :: rest) :
    step s = .next { s with pending := rest, dec := { s.dec with stream := Memory.ofBytes 0 bytes } } :=
  (step_of_host hp nofun).trans (if_neg hb)

theorem step_supplyPixels {raw : List Byte} (hb : s.enc.core.state ≠ .busy)
    (hp : s.pending = .supplyPixels raw :: rest) :
    step s = .next { s with pending := rest, enc := { s.enc with pixels := Memory.ofBytes 0 raw } } :=
  (step_of_host hp nofun).trans (if_neg hb)

end

/-- Bytes laid out from address 0 are read at their own index. -/
theorem read_ofBytes_zero (bytes : List Byte) (k : Nat) :
    Cells.read (Memory.ofBytes 0 bytes) k = bytes[k]? := by
  rw [Memory.read_ofBytes, if_neg (Nat.not_lt_zero k), Nat.sub_zero]

/-- Settles O45: one lemma per write, and `read_ofBytes_zero` for what was supplied. -/
theorem hostWrites : Obligations.HostWrites := fun _ _ _ _ bytes =>
  ⟨step_writeDimensions_dec, step_writeDimensions_enc,
    fun hb hp => ⟨_, step_supplyStream hb hp, Memory.wf_ofBytes bytes 0, read_ofBytes_zero bytes⟩,
    fun hb hp => ⟨_, step_supplyPixels hb hp, Memory.wf_ofBytes bytes 0, read_ofBytes_zero bytes⟩⟩

theorem atReset_initial (c : Agent) : Agent.AtReset { c.initial with state := .idle } where
  state := rfl
  n := rfl
  prev := rfl
  runcnt := rfl
  cache := c.initial_slot
  pred := rfl
  left := rfl
  col := rfl
  first := rfl

/-- Settles O46: an agent at power-on is one after the hardware reset, CAUSE and the draw counter apart. -/
theorem resetValues : Obligations.ResetValues := by
  have hreset : Agent.reset.AtReset := { atReset_initial Agent.reset with }
  exact ⟨⟨hreset, hreset, rfl, rfl⟩,
    fun s _ hp => ⟨_, step_of_host hp nofun, atReset_initial s.dec.core, rfl, rfl⟩,
    fun s _ hp => ⟨_, step_of_host hp nofun, atReset_initial s.enc.core, rfl, rfl⟩⟩

/-! ### What the host reads -/

theorem causeCode_of_fault {who : AgentId} {c : Agent} (h : c.state = .fault) :
    c.causeCode who = c.cause.code := if_pos h

theorem Encoder.result_eq_some_iff {e : Encoder} {bs : List Byte} (h : e.core.state = .done) :
    e.result = some bs ↔
      bs.length = e.opos ∧ ∀ k (h : k < bs.length), Cells.read e.stream k = some bs[k] := by
  rw [Encoder.result, if_pos h, Memory.readBytes_eq_some_iff]
  simp only [Nat.zero_add]

theorem Encoder.lengthPort_toNat {e : Encoder} (h : e.opos < 2 ^ 32) : e.lengthPort.toNat = e.opos := by
  rw [Encoder.lengthPort, if_pos h, BitVec.toNat_ofNat, Nat.mod_eq_of_lt h]

/-- Settles O47: the codes one by one, the bytes by `Memory.readBytes`, and the port below 2^32. -/
theorem hostReads : Obligations.HostReads := by
  refine ⟨fun who c hf => ?_, fun _ _ => Encoder.result_eq_some_iff, fun _ => Encoder.lengthPort_toNat⟩
  rw [causeCode_of_fault hf]
  exact ⟨fun h => by rw [h]; rfl, fun h => by rw [h]; rfl, fun h => by rw [h]; rfl⟩

end Sys2Proof.Machine
end

section
/-! The hash, MED and `advance` by their rules, how the tests of the chain relate, and the steps that only
count or flush a run. -/

namespace Sys2Proof.Machine

open Sys2Proof

/-! ### The hash and MED -/

/-- Settles O12: `hash_toNat`; reducing modulo 256 or 32 first changes nothing. -/
theorem hashModulo32 : Obligations.HashModulo32 := by
  intro p
  have hsum := hash_toNat p
  refine ⟨hsum, ?_, by omega⟩
  rw [hsum, BitVec.toNat_add, BitVec.toNat_add]
  omega

theorem maxByte_toNat (x y : Byte) : (maxByte x y).toNat = max x.toNat y.toNat := by
  unfold maxByte
  split <;> rename_i h <;> rw [BitVec.le_def] at h <;> omega

theorem minByte_toNat (x y : Byte) : (minByte x y).toNat = min x.toNat y.toNat := by
  unfold minByte
  split <;> rename_i h <;> rw [BitVec.le_def] at h <;> omega

section
variable {a b c : Byte}

theorem med_of_max_le (h : max a.toNat b.toNat ≤ c.toNat) : med a b c = minByte a b :=
  if_pos (by rwa [BitVec.le_def, maxByte_toNat])

theorem med_of_le_min (hmax : c.toNat < max a.toNat b.toNat) (hmin : c.toNat ≤ min a.toNat b.toNat) :
    med a b c = maxByte a b := by
  rw [med, if_neg (by rw [BitVec.le_def, maxByte_toNat]; omega),
    if_pos (by rwa [BitVec.le_def, minByte_toNat])]

theorem med_of_between (hmin : min a.toNat b.toNat < c.toNat) (hmax : c.toNat < max a.toNat b.toNat) :
    med a b c = a + b - c := by
  rw [med, if_neg (by rw [BitVec.le_def, maxByte_toNat]; omega),
    if_neg (by rw [BitVec.le_def, minByte_toNat]; omega)]

/-- The gradient does not wrap: `a + b` is the sum of the smaller and the larger neighbour (R131). -/
theorem gradient_toNat (hmin : min a.toNat b.toNat < c.toNat) (hmax : c.toNat < max a.toNat b.toNat) :
    (a + b - c).toNat = a.toNat + b.toNat - c.toNat := by
  rw [BitVec.toNat_sub, BitVec.toNat_add]
  omega

end

/-- Settles O13: one lemma per branch. -/
theorem medianEdgeDetector : Obligations.MedianEdgeDetector := by
  refine ⟨fun a b c => ⟨fun h => ?_, fun hmax hmin => ?_, fun hmin hmax => ?_⟩, fun _ _ _ => rfl⟩
  · rw [med_of_max_le h, minByte_toNat]
  · rw [med_of_le_min hmax hmin, maxByte_toNat]
  · have hgrad := gradient_toNat hmin hmax
    rw [med_of_between hmin hmax, hgrad]
    exact ⟨rfl, by omega, by omega, by omega⟩

/-! ### `advance` -/

section
variable {w : BitVec 16} {cur : Pixel} {p p' : Predictor}

/-- On the last column: the wrap of step 4, the stash of step 2, case 3 of step 5 (R134). -/
theorem advance_last (h : advance w cur p = .ok p') (hx : p.col.toNat + 1 = w.toNat) :
    p'.col = 0 ∧ p'.first = false ∧ Cells.read p'.row p.col.toNat = some cur ∧
      Cells.read p'.row 0 = some p'.pred := by
  obtain ⟨hpred, -, hcol, hfirst, hrow⟩ := advance_ok_iff.mp h
  rw [predictNext_last hx, readRow_ok_iff] at hpred
  refine ⟨hcol.trans (colAfter_last hx), hfirst.trans (firstAfter_last hx), ?_, hrow ▸ hpred⟩
  rw [hrow, read_rowAfter, if_pos ⟨rfl, hx⟩]

/-- On any other column: the next column, and cases 2 and 4 of step 5 (R134). -/
theorem advance_inner (h : advance w cur p = .ok p') (hx : p.col.toNat + 1 < w.toNat) :
    p'.col.toNat = p.col.toNat + 1 ∧ p'.first = p.first ∧
      Cells.read p'.row p.col.toNat = Cells.read p.row p.col.toNat ∧
      (p.first = true → p'.pred = cur) ∧
      (p.first = false → ∀ b c, Cells.read p.row (p.col.toNat + 1) = some b →
        Cells.read p.row p.col.toNat = some c → p'.pred = medPixel cur b c) := by
  obtain ⟨hpred, -, hcol, hfirst, hrow⟩ := advance_ok_iff.mp h
  refine ⟨by rw [hcol, colAfter_inside hx], by rw [hfirst, firstAfter_inside hx], ?_, fun hf => ?_,
    fun hf b c hb hc => ?_⟩
  · rw [hrow, read_rowAfter, if_neg (by omega), if_neg (by omega)]
  · exact Except.ok.inj (hpred.symm.trans (predictNext_first hx hf))
  · exact Except.ok.inj (hpred.symm.trans (predictNext_med hx hf hb hc))

end

/-- Settles O15: `advance_last` and `advance_inner` by the column, `read_rowAfter` for the row. -/
theorem advanceStateMachine : Obligations.AdvanceStateMachine := by
  intro w cur p hr
  obtain ⟨p', h⟩ := advance_completes hr cur
  obtain ⟨-, hleft, -, -, hrow⟩ := advance_ok_iff.mp h
  refine ⟨p', h, hleft, advance_last h, advance_inner h, fun hpos => ?_, fun j hj hj' => ?_⟩
  · rw [hrow, read_rowAfter, if_neg (by omega), if_pos (by omega)]
  · rw [hrow, read_rowAfter, if_neg fun hand => hj hand.1, if_neg hj']

/-! ### The tests of the chain -/

section
variable {m n : Nat} {v x y : Byte}

theorem inRange_mono (h : m ≤ n) (hv : inRange m v) : inRange n v := by
  have hpow : (2 : Int) ^ (m - 1) ≤ 2 ^ (n - 1) :=
    pow_le_pow_right₀ (by decide) (Nat.sub_le_sub_right h 1)
  obtain ⟨hlo, hhi⟩ := hv
  exact ⟨by omega, by omega⟩

/-- A secondary delta and green's delta rebuild a delta that DIFF2 holds (R171). -/
theorem inRange_of_luma (hx : inRange 4 (x - y)) (hy : inRange 6 y) : inRange 7 x := by
  have hsum : x.toInt = ((x - y).toInt + y.toInt).bmod 256 := by
    rw [← BitVec.toInt_add, BitVec.sub_add_cancel]
  simp only [inRange, Nat.reduceSub, Int.reducePow] at hx hy ⊢
  rw [Int.bmod_eq_of_le (by omega) (by omega)] at hsum
  omega

/-- Deltas that DIFF holds differ by little enough for LUMA. -/
theorem inRange_sub_of_diff (hx : inRange 2 x) (hy : inRange 2 y) : inRange 4 (x - y) := by
  have hdiff : (x - y).toInt = (x.toInt - y.toInt).bmod 256 := BitVec.toInt_sub
  simp only [inRange, Nat.reduceSub, Int.reducePow] at hx hy ⊢
  rw [Int.bmod_eq_of_le (by omega) (by omega)] at hdiff
  omega

end

section
variable {vr vg vb : Byte}

theorem diff3_of_diff (h : inRange 2 vr ∧ inRange 2 vg ∧ inRange 2 vb) :
    inRange 4 vr ∧ inRange 4 vb ∧ inRange 5 vg := by
  obtain ⟨hr, hg, hb⟩ := h
  exact ⟨inRange_mono (by decide) hr, inRange_mono (by decide) hb, inRange_mono (by decide) hg⟩

theorem luma_of_diff (h : inRange 2 vr ∧ inRange 2 vg ∧ inRange 2 vb) :
    inRange 4 (vr - vg) ∧ inRange 4 (vb - vg) ∧ inRange 6 vg := by
  obtain ⟨hr, hg, hb⟩ := h
  exact ⟨inRange_sub_of_diff hr hg, inRange_sub_of_diff hb hg, inRange_mono (by decide) hg⟩

theorem diff2_of_diff3 (h : inRange 4 vr ∧ inRange 4 vb ∧ inRange 5 vg) :
    inRange 7 vr ∧ inRange 7 vg ∧ inRange 7 vb := by
  obtain ⟨hr, hb, hg⟩ := h
  exact ⟨inRange_mono (by decide) hr, inRange_mono (by decide) hg, inRange_mono (by decide) hb⟩

theorem diff2_of_luma (h : inRange 4 (vr - vg) ∧ inRange 4 (vb - vg) ∧ inRange 6 vg) :
    inRange 7 vr ∧ inRange 7 vg ∧ inRange 7 vb := by
  obtain ⟨hr, hb, hg⟩ := h
  exact ⟨inRange_of_luma hr hg, inRange_mono (by decide) hg, inRange_of_luma hb hg⟩

end

/-- The literal, when no test of the chain holds: DIFF2's failing is enough (R233). -/
theorem selectOpcode_of_rgb {v px : Pixel} (hdiff2 : ¬(inRange 7 v.r ∧ inRange 7 v.g ∧ inRange 7 v.b)) :
    selectOpcode v px = .rgb px.r px.g px.b := by
  have hdiff3 := mt diff2_of_diff3 hdiff2
  have hluma := mt diff2_of_luma hdiff2
  have hdiff := mt diff3_of_diff hdiff3
  simp (disch := decide) only [selectOpcode, fits_three_iff, hdiff, hdiff3, hluma, hdiff2, if_false]

/-- The class the chain answers, told by the ranges of the deltas: each class when the tests before it fail. -/
theorem selectOpcode_opcode_iff (v px : Pixel) :
    ((selectOpcode v px).opcode = .diff ↔ inRange 2 v.r ∧ inRange 2 v.g ∧ inRange 2 v.b) ∧
    ((selectOpcode v px).opcode = .diff3 ↔
      ¬(inRange 2 v.r ∧ inRange 2 v.g ∧ inRange 2 v.b) ∧
      (inRange 4 v.r ∧ inRange 4 v.b ∧ inRange 5 v.g)) ∧
    ((selectOpcode v px).opcode = .luma ↔
      ¬(inRange 4 v.r ∧ inRange 4 v.b ∧ inRange 5 v.g) ∧
      (inRange 4 (v.r - v.g) ∧ inRange 4 (v.b - v.g) ∧ inRange 6 v.g)) ∧
    ((selectOpcode v px).opcode = .diff2 ↔
      ¬(inRange 4 v.r ∧ inRange 4 v.b ∧ inRange 5 v.g) ∧
      ¬(inRange 4 (v.r - v.g) ∧ inRange 4 (v.b - v.g) ∧ inRange 6 v.g) ∧
      (inRange 7 v.r ∧ inRange 7 v.g ∧ inRange 7 v.b)) ∧
    ((selectOpcode v px).opcode = .rgb ↔ ¬(inRange 7 v.r ∧ inRange 7 v.g ∧ inRange 7 v.b)) := by
  by_cases hdiff : inRange 2 v.r ∧ inRange 2 v.g ∧ inRange 2 v.b
  · have hdiff3 := diff3_of_diff hdiff
    simp only [selectOpcode_of_diff hdiff, Instr.opcode, reduceCtorEq, hdiff, hdiff3,
      diff2_of_diff3 hdiff3, and_self, not_true_eq_false, false_and]
  by_cases hdiff3 : inRange 4 v.r ∧ inRange 4 v.b ∧ inRange 5 v.g
  · simp only [selectOpcode_of_diff3 hdiff hdiff3, Instr.opcode, reduceCtorEq, hdiff, hdiff3,
      diff2_of_diff3 hdiff3, and_self, not_true_eq_false, not_false_eq_true, false_and]
  by_cases hluma : inRange 4 (v.r - v.g) ∧ inRange 4 (v.b - v.g) ∧ inRange 6 v.g
  · simp only [selectOpcode_of_luma hdiff hdiff3 hluma, Instr.opcode, reduceCtorEq, hdiff, hdiff3, hluma,
      diff2_of_luma hluma, and_self, and_false, not_true_eq_false, not_false_eq_true, false_and]
  by_cases hdiff2 : inRange 7 v.r ∧ inRange 7 v.g ∧ inRange 7 v.b
  · simp only [selectOpcode_of_diff2 hdiff hdiff3 hluma hdiff2, Instr.opcode, reduceCtorEq, hdiff, hdiff3,
      hluma, hdiff2, and_self, and_false, not_true_eq_false, not_false_eq_true]
  · simp only [selectOpcode_of_rgb hdiff2, Instr.opcode, reduceCtorEq, hdiff, hdiff3, hluma, hdiff2,
      and_self, and_false, not_false_eq_true]

/-- Settles O40: the tests as ranges, the nesting of the ranges, deltas that tell DIFF3 and LUMA apart, and the
chain by its classes. -/
theorem chainConditionsNest : Obligations.ChainConditionsNest := by
  refine ⟨fun vr vg vb => ?_, fun vr vg vb => ?_, fun vr vg vb => ?_,
    ⟨7, 240, 0, by decide⟩, ⟨38, 31, 31, by decide⟩, fun v px => ?_⟩ <;>
    simp (disch := decide) only [fits_iff_inRange]
  · exact fun hr hg hb => ⟨diff3_of_diff ⟨hr, hg, hb⟩, luma_of_diff ⟨hr, hg, hb⟩⟩
  · exact fun hr hb hg => diff2_of_diff3 ⟨hr, hb, hg⟩
  · exact fun hr hb hg => diff2_of_luma ⟨hr, hb, hg⟩
  · exact selectOpcode_opcode_iff v px

/-! ### Steps of the encoder and the decoder -/

/-- Settles O38: no form before RGB fits, so the miss emits the literal. -/
theorem encoderEmitsRgb : Obligations.EncoderEmitsRgb := by
  rintro s px _ _ _ hx hp hslot hr rfl rfl rfl hdiff2
  have hdiff3 := mt diff2_of_diff3 hdiff2
  exact ⟨mt diff3_of_diff hdiff3, hdiff3, mt diff2_of_luma hdiff2,
    encoderStep_miss hx hp hslot hr (selectOpcode_of_rgb hdiff2)⟩

theorem lastPixel_iff (c : Agent) :
    c.lastPixel = true ↔ c.n.toNat + 1 = c.width.toNat * c.height.toNat := by
  simp [Agent.lastPixel]

/-- Settles O31: `Encoder.opcodes_count`; RUNCNT below 30 does not reach 31. -/
theorem encoderCountsRun : Obligations.EncoderCountsRun := by
  intro s px hx hp hr hrc hlast
  have hcount : (s.enc.core.runcnt + 1).toNat = s.enc.core.runcnt.toNat + 1 := by bv_omega
  have h31 : s.enc.core.runcnt + 1 ≠ 31 := by bv_omega
  have hl : s.enc.core.lastPixel = false := by
    rw [← Bool.not_eq_true, lastPixel_iff]
    exact hlast
  obtain ⟨t, ht, hs⟩ := encoderStep_completes hx hr (Encoder.opcodes_count hp h31 hl)
  exact ⟨t, _, ht, hcount, hs⟩

/-- Settles O32: `Encoder.opcodes_flush`, its byte by `counted_run_bytes`. -/
theorem encoderFlushesRun : Obligations.EncoderFlushesRun := by
  intro s px hx hp hr hrc hflush
  have hend : s.enc.core.runcnt + 1 = 31 ∨ s.enc.core.lastPixel = true :=
    hflush.imp (fun h => by bv_omega) (lastPixel_iff _).mpr
  obtain ⟨t, ht, hs⟩ := encoderStep_completes hx hr (Encoder.opcodes_flush hp hend)
  rw [counted_run_bytes _ hrc] at hs
  exact ⟨t, ht, hs⟩

/-- Settles O23: `retireRepeat_completes` with RUNCNT at the field. -/
theorem runResult : Obligations.RunResult := by
  intro f s hf hr
  obtain ⟨t, ht⟩ := retireRepeat_completes (k := 1) (rc := f) (px := s.dec.core.prev) hr
  exact ⟨runsWhole_of_wellFormed ((runFieldOk_iff f).mpr hf), t, ht, retireRepeat_stepped ht⟩

end Sys2Proof.Machine
end

section
/-! Lock step, and the runs: the encoder's and the decoder's alone, and one after the other. -/

namespace Sys2Proof.Machine

open Sys2Proof

/-! ### The opcode of a pixel stands for it -/

/-- A delta form of the encoder's fields is the pixel again (R166, R170). -/
theorem deltaPixel_fields {i j k : Nat} {q px : Pixel} (hw : ∀ n ∈ [i, j, k], 0 < n ∧ n ≤ 8)
    (hr : fits i (subPixel px q).r = true) (hg : fits j (subPixel px q).g = true)
    (hb : fits k (subPixel px q).b = true) :
    deltaPixel q (field i (subPixel px q).r) (field j (subPixel px q).g) (field k (subPixel px q).b) =
      px := by
  have hsext : ∀ n ∈ [i, j, k], ∀ v : Byte, fits n v = true → sext (field n v) = v := fun n hn _ =>
    sext_field_of_fits (hw n hn).1 (hw n hn).2
  rw [deltaPixel, hsext i (by simp) _ hr, hsext j (by simp) _ hg, hsext k (by simp) _ hb]
  exact addPixel_subPixel q px

/-- Executing what the chain selects for a pixel, from the same prediction, makes that pixel. -/
theorem exec_selectOpcode {q px : Pixel} {s : State} (hq : q = s.dec.core.p.pred) :
    exec (selectOpcode (subPixel px q) px) s =
      retireColour (encode (selectOpcode (subPixel px q) px)).length px s := by
  subst hq
  unfold selectOpcode
  split_ifs with hdiff hdiff3 hluma hdiff2
  · simp only [Bool.and_eq_true] at hdiff
    obtain ⟨⟨hr, hg⟩, hb⟩ := hdiff
    exact congrArg (retireColour 1 · s) (deltaPixel_fields (by decide) hr hg hb)
  · simp only [Bool.and_eq_true] at hdiff3
    obtain ⟨⟨hr, hb⟩, hg⟩ := hdiff3
    exact congrArg (retireColour 2 · s) (deltaPixel_fields (by decide) hr hg hb)
  · simp only [Bool.and_eq_true] at hluma
    obtain ⟨⟨hr, hb⟩, hg⟩ := hluma
    exact congrArg (retireColour 2 · s) ((lumaPixel_fields hg hr hb).trans (addPixel_subPixel _ px))
  · simp only [Bool.and_eq_true] at hdiff2
    obtain ⟨⟨hr, hg⟩, hb⟩ := hdiff2
    exact congrArg (retireColour 3 · s) (deltaPixel_fields (by decide) hr hg hb)
  · rfl

/-- The same for the opcode of a colour pixel, from the same slot and prediction. -/
theorem exec_colourOpcode {c : Agent} {px : Pixel} {s : State}
    (hslot : c.slot (hash px) = s.dec.core.slot (hash px)) (hpred : c.p.pred = s.dec.core.p.pred) :
    exec (c.colourOpcode px) s = retireColour (encode (c.colourOpcode px)).length px s := by
  unfold Agent.colourOpcode
  split_ifs with hhit
  · exact congrArg (retireColour 1 · s) (hslot.symm.trans hhit)
  · exact exec_selectOpcode hpred

/-! ### Lock step -/

theorem cache_eq_of_slots {c d : Agent} (h : ∀ i, c.slot i = d.slot i) : c.cache = d.cache := by
  refine Vector.ext fun i hi => ?_
  have hslot := h (BitVec.ofNat 5 i)
  simpa [Agent.slot, Nat.mod_eq_of_lt hi] using hslot

/-- A cache written with a pixel, and one whose slot holds it already, are the same. -/
theorem slots_after_colour {c c' d d' : Agent} {px : Pixel} {rc rc' : BitVec 5}
    (hc : AgentStepped c c' px rc (decide (c.slot (hash px) ≠ px)))
    (hd : AgentStepped d d' px rc' true) (h : ∀ i, c.slot i = d.slot i) (i : BitVec 5) :
    c'.slot i = d'.slot i := by
  rw [hc.cache, hd.cache, h i, h (hash px)]
  by_cases hi : i = hash px
  · subst hi
    by_cases hhit : d.slot (hash px) = px <;> simp [hhit]
  · simp [hi]

/-- The same pixel step keeps two agents alike (R303). -/
theorem LockStep.step {c c' d d' : Agent} {px : Pixel} {rc rc' : BitVec 5} (h : LockStep c d)
    (hc : AgentStepped c c' px rc (decide (c.slot (hash px) ≠ px))) (hd : AgentStepped d d' px rc' true) :
    LockStep c' d' where
  width := by rw [hc.width, hd.width, h.width]
  height := by rw [hc.height, hd.height, h.height]
  n := by rw [hc.n, hd.n, h.n]
  prev := by rw [hc.prev, hd.prev]
  cache := cache_eq_of_slots (slots_after_colour hc hd fun i => by rw [Agent.slot, Agent.slot, h.cache])
  predictor := by
    have hp := hc.predictor
    rw [h.width, h.predictor, hd.predictor] at hp
    exact (Except.ok.inj hp).symm

/-- Settles O41: both agents take the pixel step, with the same pixel. -/
theorem colourPixelKeepsLockStep : Obligations.ColourPixelKeepsLockStep := by
  intro s px i hl hr hp hi
  have hi' : i = s.enc.core.colourOpcode px := hi
  subst hi'
  obtain ⟨p, hadv⟩ := advance_completes hr px
  have ho := Encoder.opcodes_colour hp
  have hfin := finish_ok_iff (c := (s.enc.opcodes px).core) (px := px) |>.mpr
    ⟨p, by rw [ho, Encoder.after_width, Encoder.after_p, hl.width, hl.predictor]; exact hadv, rfl⟩
  have hstep := encoderStep_stepped ho hfin rfl
  obtain ⟨t, ht, hs⟩ := retireColour_next hr (encode (s.enc.core.colourOpcode px)).length px
  refine ⟨_, t, hfin, ?_, colourOpcode_wellFormed _ px, hl.step hstep.core hs.core, hs.readPixel_here⟩
  rw [exec_colourOpcode _ (by rw [hl.predictor]), ht]
  rw [Agent.slot, Agent.slot, hl.cache]

/-! ### Runs of the machine -/

/-- `k` steps lead from `s` to `t`, none of them a fault or a refusal. -/
def Runs (k : Nat) (s t : State) : Prop :=
  Host.Core.run Sys2Proof.core k s = (.next t : Host.Outcome State Fault Refusal)

theorem Runs.refl (s : State) : Runs 0 s s := rfl

theorem runs_succ_iff {k : Nat} {s t : State} :
    Runs (k + 1) s t ↔ ∃ s', step s = .next s' ∧ Runs k s' t := by
  cases hs : step s with
  | next s' =>
    have hcore : Sys2Proof.core.step s = .next s' := hs
    simp only [Runs, Host.Core.run, hcore, Host.Outcome.next.injEq, exists_eq_left']
  | fault f =>
    have hcore : Sys2Proof.core.step s = .fault f := hs
    simp only [Runs, Host.Core.run, hcore, reduceCtorEq, false_and, exists_false]
  | refused r =>
    have hcore : Sys2Proof.core.step s = .refused r := hs
    simp only [Runs, Host.Core.run, hcore, reduceCtorEq, false_and, exists_false]

theorem Runs.head {k : Nat} {s s' t : State} (h : step s = .next s') (hr : Runs k s' t) :
    Runs (k + 1) s t := runs_succ_iff.mpr ⟨s', h, hr⟩

theorem Runs.single {s t : State} (h : step s = .next t) : Runs 1 s t := (Runs.refl t).head h

theorem Runs.trans {j k : Nat} {s t u : State} (h : Runs j s t) (hr : Runs k t u) : Runs (j + k) s u := by
  induction j generalizing s with
  | zero =>
    obtain rfl := Host.Outcome.next.inj h
    rwa [Nat.zero_add]
  | succ j ih =>
    obtain ⟨s', hs, hj⟩ := runs_succ_iff.mp h
    rw [Nat.add_right_comm]
    exact (ih hj).head hs

end Sys2Proof.Machine
end

section
/-! The runs: the encoder alone, the decoder alone, and the decoder on what the encoder has emitted. -/

namespace Sys2Proof.Machine

open Sys2Proof

/-! ### The decoder alone -/

/-- Inside a run of the decoder: nothing is asked and the encoder is not BUSY. -/
structure DecoderRunning (s : State) : Prop where
  counting : s.Counting
  history : s.History
  pending : s.pending = []
  busy : s.dec.core.state = .busy
  alone : s.enc.core.state ≠ .busy

theorem opcode_length_le (op : Opcode) : op.length ≤ 4 := by cases op <;> decide

theorem decoderStep_completes {s : State} (hr : s.dec.core.p.Readable s.dec.core.width) :
    ∃ t, decoderStep s = .next t := by
  by_cases hrun : s.dec.core.runcnt = 0
  · cases hf : fetch s.dec.stream s.dec.ipos with
    | none => exact ⟨_, decoderStep_underrun hrun hf⟩
    | some i =>
      rw [decoderStep_opcode hrun hf]
      exact exec_completes hr i
  · rw [decoderStep_run hrun]
    exact (runContinuation_next hr).imp fun _ h => h.1

namespace DecoderRunning

variable {s t : State}

theorem step_eq (h : DecoderRunning s) : step s = decoderStep (s.passTurn .decoder) :=
  step_of_mover_dec h.pending (mover_of_busy_dec h.busy (.inr h.alone))

theorem readable (h : DecoderRunning s) : s.dec.core.p.Readable s.dec.core.width :=
  (busyAgentCanAdvance s h.counting h.history).1 h.busy

theorem inside (h : DecoderRunning s) :
    s.dec.core.n.toNat < s.dec.core.width.toNat * s.dec.core.height.toNat :=
  (h.counting.dec h.busy).1.inside

/-- A pixel step that was not the last leaves the decoder in its run. -/
theorem next {px : Pixel} {k : Nat} {rc : BitVec 5} {colour : Bool} (h : DecoderRunning s)
    (hst : step s = .next t) (hs : DecoderStepped (s.passTurn .decoder) t px k rc colour)
    (hlast : s.dec.core.n.toNat + 1 ≠ s.dec.core.width.toNat * s.dec.core.height.toNat) :
    DecoderRunning t where
  counting := stepKeepsCounting s t h.counting hst
  history := stepKeepsHistory s t h.counting h.history hst
  pending := hs.pending.trans h.pending
  busy := hs.core.state.trans ((if_neg hlast).trans h.busy)
  alone := by rw [hs.encoder]; exact h.alone

/-- A step of a lone decoder is a pixel step, or StreamUnderrun for a byte among 4 a pixel (R30, R263). -/
theorem step_outcome (h : DecoderRunning s) :
    ∃ t, step s = .next t ∧
      ((∃ px k rc colour, DecoderStepped (s.passTurn .decoder) t px k rc colour) ∨
        (t.dec.core.state = .fault ∧ t.dec.core.cause = .streamUnderrun ∧
          ∃ a, a < 4 * (s.dec.core.width.toNat * s.dec.core.height.toNat) ∧
            Cells.read s.dec.stream a = none)) := by
  obtain ⟨t, ht⟩ := decoderStep_completes (s := s.passTurn .decoder) h.readable
  refine ⟨t, h.step_eq.trans ht, ?_⟩
  rcases decoderStep_outcome ht with ⟨px, k, rc, colour, hs, -, -⟩ | ⟨-, hnone, rfl⟩
  · exact .inl ⟨px, k, rc, colour, hs⟩
  · refine .inr ⟨rfl, rfl, ?_⟩
    have hin := h.inside
    have hipos := (h.counting.dec h.busy).2
    rcases fetch_eq_none_iff.mp hnone with h0 | ⟨b0, j, -, hj, h0⟩
    · exact ⟨s.dec.ipos, by omega, h0⟩
    · have hlen := opcode_length_le (classify b0)
      exact ⟨s.dec.ipos + j, by omega, h0⟩

/-- The run ends after the pixel steps that are left, or before in StreamUnderrun. -/
theorem run_ends {left : Nat} (h : DecoderRunning s)
    (hleft : s.dec.core.n.toNat + left = s.dec.core.width.toNat * s.dec.core.height.toNat) :
    ∃ k t, k ≤ left ∧ Runs k s t ∧
      ((k = left ∧ t.dec.core.state = .done) ∨
        (t.dec.core.state = .fault ∧ t.dec.core.cause = .streamUnderrun ∧
          ∃ a, a < 4 * (s.dec.core.width.toNat * s.dec.core.height.toNat) ∧
            Cells.read s.dec.stream a = none)) := by
  induction left generalizing s with
  | zero => exact absurd h.inside (by omega)
  | succ left ih =>
    obtain ⟨s', hst, ⟨px, k, rc, colour, hs⟩ | hfault⟩ := h.step_outcome
    · have hn := hs.core.n_toNat h.inside
      have hw := hs.core.width
      have hh := hs.core.height
      have hm := hs.input
      rw [State.passTurn_dec] at hn hw hh hm
      by_cases hlast : s.dec.core.n.toNat + 1 = s.dec.core.width.toNat * s.dec.core.height.toNat
      · exact ⟨1, s', by omega, Runs.single hst,
          .inl ⟨by omega, hs.core.state.trans (if_pos hlast)⟩⟩
      · obtain ⟨j, t, hj, hrun, hend⟩ := ih (h.next hst hs hlast) (by rw [hn, hw, hh]; omega)
        rw [hw, hh, hm] at hend
        exact ⟨j + 1, t, by omega, hrun.head hst, hend.imp_left fun he => ⟨by omega, he.2⟩⟩
    · exact ⟨1, s', by omega, Runs.single hst, .inr hfault⟩

end DecoderRunning

/-- Settles O58: the two ends of `DecoderRunning.run_ends`, of which 4 bytes a pixel leave one. -/
theorem decoderRunEnds : Obligations.DecoderRunEnds := by
  intro s left hsound hp hb halone hleft
  obtain ⟨k, t, hk, hrun, hend⟩ :=
    DecoderRunning.run_ends ⟨hsound.counting, hsound.history, hp, hb, halone⟩ hleft
  refine ⟨⟨k, t, hk, hrun, hend.imp (·.2) fun hf => ⟨hf.1, hf.2.1⟩⟩, fun hbytes => ?_⟩
  rcases hend with ⟨rfl, hdone⟩ | ⟨-, -, a, ha, hnone⟩
  · exact ⟨t, hrun, hdone⟩
  · have hsome := hbytes a ha
    rw [hnone] at hsome
    cases hsome

/-! ### The encoder alone -/

/-- Inside a run of the encoder: its input is there, nothing is asked and the decoder is not BUSY. -/
structure EncoderRunning (s : State) : Prop where
  counting : s.Counting
  history : s.History
  pending : s.pending = []
  busy : s.enc.core.state = .busy
  alone : s.dec.core.state ≠ .busy
  ready : ∀ k, k < s.enc.core.width.toNat * s.enc.core.height.toNat → (s.enc.pixels.readPixel k).isSome

/-- From `s` to `t` a lone encoder took the pixel step of its pixel at N, `px`. -/
structure EncoderPixel (s t : State) (px : Pixel) (out : List Byte) (rc : BitVec 5) (colour : Bool) :
    Prop where
  running : EncoderRunning s
  step : step s = .next t
  pixel : s.enc.image s.enc.core.n.toNat = px
  emits : s.enc.core.Emits px out rc colour
  stepped : EncoderStepped (s.passTurn .encoder) t px out rc colour

/-- A run of the encoder to its last pixel, pixel step by pixel step. -/
inductive EncoderRun : State → State → Prop where
  | last {s t : State} {px : Pixel} {out : List Byte} {rc : BitVec 5} {colour : Bool}
      (hpix : EncoderPixel s t px out rc colour) (hlast : s.enc.core.lastPixel = true) : EncoderRun s t
  | more {s s' t : State} {px : Pixel} {out : List Byte} {rc : BitVec 5} {colour : Bool}
      (hpix : EncoderPixel s s' px out rc colour) (hnext : EncoderRunning s') (hrest : EncoderRun s' t) :
      EncoderRun s t

theorem EncoderRunning.pixel_step {s : State} (h : EncoderRunning s) :
    ∃ t px out rc colour, EncoderPixel s t px out rc colour := by
  obtain ⟨px, hx⟩ := Option.isSome_iff_exists.mp (h.ready _ (h.counting.enc h.busy).1.inside)
  obtain ⟨out, rc, colour, hemit, ho⟩ := s.enc.opcodes_emits px
  obtain ⟨t, ht, hs⟩ := encoderStep_completes (s := s.passTurn .encoder) hx
    ((busyAgentCanAdvance s h.counting h.history).2 h.busy) ho
  have hst := step_of_mover_enc h.pending (mover_of_busy_enc h.busy (.inr h.alone))
  exact ⟨t, px, out, rc, colour, h, hst.trans ht, Encoder.image_of_readPixel hx, hemit, hs⟩

namespace EncoderPixel

variable {s t : State} {px : Pixel} {out : List Byte} {rc : BitVec 5} {colour : Bool}

theorem n_succ (h : EncoderPixel s t px out rc colour) :
    t.enc.core.n.toNat = s.enc.core.n.toNat + 1 :=
  h.stepped.core.n_toNat (h.running.counting.enc h.running.busy).1.inside

theorem width (h : EncoderPixel s t px out rc colour) : t.enc.core.width = s.enc.core.width :=
  h.stepped.core.width

theorem height (h : EncoderPixel s t px out rc colour) : t.enc.core.height = s.enc.core.height :=
  h.stepped.core.height

theorem image (h : EncoderPixel s t px out rc colour) : t.enc.image = s.enc.image := h.stepped.image

/-- The bytes after the step, and no run in flight after the last pixel (R236, R238). -/
theorem accounted (h : EncoderPixel s t px out rc colour) :
    t.enc.Accounted ∧ t.enc.core.runcnt.toNat ≤ 30 ∧
      (s.enc.core.lastPixel = true → t.enc.core.runcnt = 0) := by
  obtain ⟨hc, ha⟩ := h.running.counting.enc h.running.busy
  exact h.stepped.accounted h.emits hc ha

theorem next (h : EncoderPixel s t px out rc colour) (hlast : ¬s.enc.core.lastPixel = true) :
    EncoderRunning t where
  counting := stepKeepsCounting s t h.running.counting h.step
  history := stepKeepsHistory s t h.running.counting h.running.history h.step
  pending := h.stepped.pending.trans h.running.pending
  busy := h.stepped.core.state.trans ((if_neg ((lastPixel_iff _).not.mp hlast)).trans h.running.busy)
  alone := by rw [h.stepped.decoder]; exact h.running.alone
  ready := by rw [h.width, h.height, h.stepped.input]; exact h.running.ready

end EncoderPixel

/-- A lone encoder runs to its last pixel, one step a pixel. -/
theorem EncoderRunning.runs {s : State} {left : Nat} (h : EncoderRunning s)
    (hleft : s.enc.core.n.toNat + left = s.enc.core.width.toNat * s.enc.core.height.toNat) :
    ∃ t, Runs left s t ∧ EncoderRun s t := by
  have hin := (h.counting.enc h.busy).1.inside
  induction left generalizing s with
  | zero => omega
  | succ left ih =>
    obtain ⟨s', px, out, rc, colour, hpix⟩ := h.pixel_step
    by_cases hlast : s.enc.core.lastPixel = true
    · have h0 : left = 0 := by
        have := (lastPixel_iff _).mp hlast
        omega
      subst h0
      exact ⟨s', Runs.single hpix.step, .last hpix hlast⟩
    · have hnext := hpix.next hlast
      obtain ⟨t, hrun, hrest⟩ := ih hnext (by rw [hpix.n_succ, hpix.width, hpix.height]; omega)
        (hnext.counting.enc hnext.busy).1.inside
      exact ⟨t, hrun.head hpix.step, .more hpix hnext hrest⟩

/-- Where a run of the encoder has ended: DONE after the last pixel, with no run in flight and the bytes
accounted for. -/
structure EncoderEnded (s t : State) : Prop where
  state : t.enc.core.state = .done
  n : t.enc.core.n.toNat = s.enc.core.width.toNat * s.enc.core.height.toNat
  positive : 0 < t.enc.core.n.toNat
  runcnt : t.enc.core.runcnt = 0
  accounted : t.enc.Accounted
  decoder : t.dec = s.dec
  cfg : t.cfg = s.cfg

theorem EncoderRun.ended {s t : State} (h : EncoderRun s t) : EncoderEnded s t := by
  induction h with
  | last hpix hlast =>
    obtain ⟨ha, -, hrc⟩ := hpix.accounted
    have hn := hpix.n_succ
    have hl := (lastPixel_iff _).mp hlast
    exact ⟨hpix.stepped.core.state.trans (if_pos hl), by omega, by omega, hrc hlast, ha,
      hpix.stepped.decoder, hpix.stepped.cfg⟩
  | more hpix hnext hrest ih =>
    exact ⟨ih.state, by rw [ih.n, hpix.width, hpix.height], ih.positive, ih.runcnt, ih.accounted,
      ih.decoder.trans hpix.stepped.decoder, ih.cfg.trans hpix.stepped.cfg⟩

/-- Settles O59: the run exists, and at its end all pixels are outside a run. -/
theorem encoderRunEnds : Obligations.EncoderRunEnds := by
  intro s left hsound hready hp hb halone hleft
  obtain ⟨t, hrun, hencoded⟩ :=
    EncoderRunning.runs ⟨hsound.counting, hsound.history, hp, hb, halone, hready hb⟩ hleft
  have hend := hencoded.ended
  obtain ⟨-, hbytes, hnone⟩ := hend.accounted
  have hn := hend.n
  have hpos := hend.positive
  have hrc : t.enc.core.runcnt.toNat = 0 := by rw [hend.runcnt]; rfl
  refine ⟨t, hrun, hend.state, hend.runcnt, Nat.pos_of_ne_zero fun h0 => ?_, by omega⟩
  have := hnone h0
  omega

end Sys2Proof.Machine
end

section
/-! The round trip: a decoder follows the encoder's run through the bytes it has emitted, pending runs behind. -/

namespace Sys2Proof.Machine

open Sys2Proof

/-! ### Bytes that stand in a stream -/

theorem readBytes_append {m : Memory} {k : Nat} {xs ys : List Byte}
    (h : m.readBytes k (xs ++ ys).length = some (xs ++ ys)) :
    m.readBytes k xs.length = some xs ∧ m.readBytes (k + xs.length) ys.length = some ys := by
  obtain ⟨-, hall⟩ := (Memory.readBytes_eq_some_iff _ _ _ _).mp h
  refine ⟨(Memory.readBytes_eq_some_iff _ _ _ _).mpr ⟨rfl, fun i hi => ?_⟩,
    (Memory.readBytes_eq_some_iff _ _ _ _).mpr ⟨rfl, fun i hi => ?_⟩⟩
  · rw [hall i (by rw [List.length_append]; omega), List.getElem_append_left hi]
  · rw [Nat.add_assoc, hall (xs.length + i) (by rw [List.length_append]; omega),
      List.getElem_append_right (Nat.le_add_right _ _)]
    simp

/-! ### A decoder on its way through a stream -/

/-- What a decoder is to make of which stream. -/
structure Job where
  width : BitVec 16
  height : BitVec 16
  image : Nat → Pixel
  stream : Memory

def Job.size (job : Job) : Nat := job.width.toNat * job.height.toNat

/-- The encoder's image, to be made of stream `m`. -/
def Encoder.job (e : Encoder) (m : Memory) : Job := ⟨e.core.width, e.core.height, e.image, m⟩

/-- A lone decoder has made the first `n` pixels of its job: its cache, PREV, N, IPOS and RUNCNT. -/
structure DecoderAt (job : Job) (slots : BitVec 5 → Pixel) (prev : Pixel) (n ipos rc : Nat) (s : State) :
    Prop where
  counting : s.Counting
  history : s.History
  pending : s.pending = []
  alone : s.enc.core.state ≠ .busy
  width : s.dec.core.width = job.width
  height : s.dec.core.height = job.height
  stream : s.dec.stream = job.stream
  slots : ∀ i, s.dec.core.slot i = slots i
  prev : s.dec.core.prev = prev
  index : s.dec.core.n.toNat = n
  ipos : s.dec.ipos = ipos
  runcnt : s.dec.core.runcnt.toNat = rc
  state : s.dec.core.state = if n = job.size then .done else .busy
  pixels : ∀ k, k < n → s.dec.pixels.readPixel k = some (job.image k)

namespace DecoderAt

variable {job : Job} {slots : BitVec 5 → Pixel} {prev : Pixel} {n ipos rc : Nat} {s t : State}

theorem running (h : DecoderAt job slots prev n ipos rc s) (hn : n < job.size) : DecoderRunning s :=
  ⟨h.counting, h.history, h.pending, h.state.trans (if_neg (Nat.ne_of_lt hn)), h.alone⟩

/-- A pixel step with the job's pixel moves the decoder on. -/
theorem pixel {slots' : BitVec 5 → Pixel} {k : Nat} {rc' : BitVec 5} {colour : Bool}
    (h : DecoderAt job slots prev n ipos rc s) (hn : n < job.size)
    (ht : decoderStep (s.passTurn .decoder) = .next t)
    (hs : DecoderStepped (s.passTurn .decoder) t (job.image n) k rc' colour)
    (hslots : ∀ i, t.dec.core.slot i = slots' i) :
    Runs 1 s t ∧ DecoderAt job slots' (job.image n) (n + 1) (ipos + k) rc'.toNat t := by
  have hrun := h.running hn
  have hst : step s = .next t := hrun.step_eq.trans ht
  have hsize : s.dec.core.width.toNat * s.dec.core.height.toNat = job.size := by
    rw [h.width, h.height]
    rfl
  have hnext : t.dec.core.n.toNat = n + 1 := by
    rw [hs.core.n_toNat hrun.inside, State.passTurn_dec, h.index]
  refine ⟨Runs.single hst, {
    counting := stepKeepsCounting s t h.counting hst
    history := stepKeepsHistory s t h.counting h.history hst
    pending := hs.pending.trans h.pending
    alone := by rw [hs.encoder]; exact h.alone
    width := hs.core.width.trans h.width
    height := hs.core.height.trans h.height
    stream := hs.input.trans h.stream
    slots := hslots
    prev := hs.core.prev
    index := hnext
    ipos := by rw [hs.ipos, State.passTurn_dec, h.ipos]
    runcnt := by rw [hs.core.runcnt]
    state := ?_
    pixels := fun j hj => ?_ }⟩
  · rw [hs.core.state, stateAfter, State.passTurn_dec, h.index, hsize, hrun.busy]
  · rcases Nat.lt_or_eq_of_le (Nat.le_of_lt_succ hj) with hlt | rfl
    · rw [hs.readPixel_other (by rw [State.passTurn_dec, h.index]; omega)]
      exact h.pixels j hlt
    · rw [← hs.readPixel_here, State.passTurn_dec, h.index]

/-- A run in flight repeats PREV to its end (R187). -/
theorem repeats (h : DecoderAt job slots prev n ipos rc s) (hn : n + rc ≤ job.size)
    (hprev : ∀ k, n ≤ k → k < n + rc → job.image k = prev) :
    ∃ t, Runs rc s t ∧ DecoderAt job slots prev (n + rc) ipos 0 t := by
  induction rc generalizing n s with
  | zero => exact ⟨s, Runs.refl s, h⟩
  | succ rc ih =>
    have hlt : n < job.size := by omega
    have himg : s.dec.core.prev = job.image n := h.prev.trans (hprev n (by omega) (by omega)).symm
    obtain ⟨t, ht, hs⟩ := runContinuation_next (s := s.passTurn .decoder) (h.running hlt).readable
    rw [State.passTurn_dec, himg] at hs
    have hpos : 0 < s.dec.core.runcnt.toNat := by rw [h.runcnt]; omega
    have hstep := (decoderStep_continues (s := s.passTurn .decoder) hpos).trans ht
    obtain ⟨h1, hat⟩ := h.pixel hlt hstep hs fun i => (hs.core.cache i).trans (by simpa using h.slots i)
    have hcount : (s.dec.core.runcnt - 1).toNat = rc := by
      have hrc := h.runcnt
      bv_omega
    rw [hcount, hprev n (by omega) (by omega)] at hat
    obtain ⟨t', hrun, hat'⟩ := ih hat (by omega) fun k hk hk' => hprev k (by omega) (by omega)
    refine ⟨t', ?_, ?_⟩
    · rw [Nat.add_comm rc 1]
      exact h1.trans hrun
    · rwa [Nat.add_right_comm] at hat'

/-- A RUN opcode stands for as many pixels as it counts (R189). -/
theorem run_opcode {f : BitVec 5} (h : DecoderAt job slots prev n ipos 0 s) (hf : f.toNat ≤ 30)
    (hbyte : job.stream.readBytes ipos (encode (.run f)).length = some (encode (.run f)))
    (hn : n + (f.toNat + 1) ≤ job.size)
    (hprev : ∀ k, n ≤ k → k < n + (f.toNat + 1) → job.image k = prev) :
    ∃ t, Runs (f.toNat + 1) s t ∧ DecoderAt job slots prev (n + (f.toNat + 1)) (ipos + 1) 0 t := by
  have hlt : n < job.size := by omega
  have himg : s.dec.core.prev = job.image n := h.prev.trans (hprev n (by omega) (by omega)).symm
  have hfetch : fetch s.dec.stream s.dec.ipos = some (.run f) := by
    rw [h.stream, h.ipos]
    exact fetch_encode ((runFieldOk_iff f).mpr hf) hbyte
  have hidle : s.dec.core.runcnt = 0 := BitVec.eq_of_toNat_eq h.runcnt
  obtain ⟨t, ht⟩ := exec_completes (s := s.passTurn .decoder) (h.running hlt).readable (.run f)
  have hs : DecoderStepped (s.passTurn .decoder) t s.dec.core.prev 1 f false := retireRepeat_stepped ht
  rw [himg] at hs
  have hstep := (decoderStep_opcode (s := s.passTurn .decoder) hidle hfetch).trans ht
  obtain ⟨h1, hat⟩ := h.pixel hlt hstep hs fun i => (hs.core.cache i).trans (by simpa using h.slots i)
  rw [hprev n (by omega) (by omega)] at hat
  obtain ⟨t', hrun, hat'⟩ := hat.repeats (by omega) fun k hk hk' => hprev k (by omega) (by omega)
  refine ⟨t', ?_, ?_⟩
  · rw [Nat.add_comm]
    exact h1.trans hrun
  · rwa [Nat.add_assoc, Nat.add_comm 1] at hat'

/-- The bytes of a pending run stand for its pixels, and are none when no run is pending (R225). -/
theorem pending_run {r : BitVec 5} (h : DecoderAt job slots prev n ipos 0 s)
    (hbytes : job.stream.readBytes ipos (pendingRun r).length = some (pendingRun r))
    (hn : n + r.toNat ≤ job.size) (hprev : ∀ k, n ≤ k → k < n + r.toNat → job.image k = prev) :
    ∃ t, Runs r.toNat s t ∧ DecoderAt job slots prev (n + r.toNat) (ipos + (pendingRun r).length) 0 t := by
  rw [← flush_bytes] at hbytes ⊢
  by_cases hr : r = 0
  · subst hr
    exact ⟨s, Runs.refl s, h⟩
  · have hfield : (r - 1).toNat + 1 = r.toNat := by bv_omega
    rw [if_pos (by simpa using hr)] at hbytes ⊢
    rw [← hfield] at hn hprev ⊢
    exact h.run_opcode (by bv_omega) hbytes hn hprev

/-- The prediction of a decoder inside its job is the rule's over the image of the job. -/
theorem pred (h : DecoderAt job slots prev n ipos rc s) (hn : n < job.size) :
    s.dec.core.p.pred = predictionRule job.width.toNat job.image n := by
  have hrun := h.running hn
  have hw := (h.counting.dec hrun.busy).1.widthPos
  rw [(h.history.dec hrun.busy).1.pred, h.index, h.width]
  refine predictionRule_congr (h.width ▸ hw) fun k hk => ?_
  rw [Decoder.image, h.pixels k hk, Option.getD_some]

/-- The opcode an agent in lock step has selected for the pixel at `n` stands for it. -/
theorem colour {c c' : Agent} {rc' : BitVec 5} (h : DecoderAt job c.slot prev n ipos 0 s)
    (hn : n < job.size) (hpred : c.p.pred = predictionRule job.width.toNat job.image n)
    (hc : AgentStepped c c' (job.image n) rc' (decide (c.slot (hash (job.image n)) ≠ job.image n)))
    (hbytes : job.stream.readBytes ipos (encode (c.colourOpcode (job.image n))).length =
      some (encode (c.colourOpcode (job.image n)))) :
    ∃ t, Runs 1 s t ∧ DecoderAt job c'.slot (job.image n) (n + 1)
      (ipos + (encode (c.colourOpcode (job.image n))).length) 0 t := by
  have hfetch : fetch s.dec.stream s.dec.ipos = some (c.colourOpcode (job.image n)) := by
    rw [h.stream, h.ipos]
    exact fetch_encode (colourOpcode_wellFormed c _) hbytes
  have hidle : s.dec.core.runcnt = 0 := BitVec.eq_of_toNat_eq h.runcnt
  obtain ⟨t, ht, hs⟩ := retireColour_next (s := s.passTurn .decoder) (h.running hn).readable
    (encode (c.colourOpcode (job.image n))).length (job.image n)
  have hexec := exec_colourOpcode (c := c) (px := job.image n) (s := s.passTurn .decoder)
    (h.slots _).symm (hpred.trans (h.pred hn).symm)
  have hstep := (decoderStep_opcode (s := s.passTurn .decoder) hidle hfetch).trans (hexec.trans ht)
  obtain ⟨h1, hat⟩ := h.pixel hn hstep hs fun i =>
    (slots_after_colour hc hs.core (fun j => (h.slots j).symm) i).symm
  rw [State.passTurn_dec, h.runcnt] at hat
  exact ⟨t, h1, hat⟩

end DecoderAt

/-! ### Following the encoder -/

/-- The decoder of `s` has made every pixel of which the encoder has emitted the opcode: all below N but those
of the pending run, which equal the PREV they share. -/
def Follows (m : Memory) (e : Encoder) (s : State) : Prop :=
  DecoderAt (e.job m) e.core.slot e.core.prev (e.core.n.toNat - e.core.runcnt.toNat) e.opos 0 s

/-- From `e` to `e'` the encoder only added to its stream, and left no byte out below OPOS. -/
structure StreamGrew (e e' : Encoder) : Prop where
  le : e.opos ≤ e'.opos
  kept : ∀ a, a < e.opos → Cells.read e'.stream a = Cells.read e.stream a
  filled : (∀ a, a < e.opos → (Cells.read e.stream a).isSome) →
    ∀ a, a < e'.opos → (Cells.read e'.stream a).isSome

theorem StreamGrew.trans {e e' e'' : Encoder} (h : StreamGrew e e') (h' : StreamGrew e' e'') :
    StreamGrew e e'' where
  le := h.le.trans h'.le
  kept a ha := (h'.kept a (ha.trans_le h.le)).trans (h.kept a ha)
  filled h0 := h'.filled (h.filled h0)

namespace EncoderPixel

variable {u v : State} {px : Pixel} {out : List Byte} {rc : BitVec 5} {colour : Bool}

theorem job (h : EncoderPixel u v px out rc colour) (m : Memory) : v.enc.job m = u.enc.job m := by
  rw [Encoder.job, Encoder.job, h.width, h.height, h.image]

theorem slots_of_repeat (h : EncoderPixel u v px out rc false) : v.enc.core.slot = u.enc.core.slot := by
  funext i
  rw [h.stepped.core.cache]
  simp

/-- The pixels of the pending run, by raster index. -/
theorem run_image (h : EncoderPixel u v px out rc colour) {k : Nat}
    (hk : u.enc.core.n.toNat - u.enc.core.runcnt.toNat ≤ k) (hk' : k < u.enc.core.n.toNat) :
    u.enc.image k = u.enc.core.prev := by
  have hrun := (h.running.history.enc h.running.busy).2 (u.enc.core.n.toNat - 1 - k) (by omega)
  rwa [show u.enc.core.n.toNat - 1 - (u.enc.core.n.toNat - 1 - k) = k by omega] at hrun

/-- A decoder that follows the encoder follows it through one more pixel, in as many steps as that pixel's
opcodes stand for. -/
theorem follows {m : Memory} {s : State} (h : EncoderPixel u v px out rc colour)
    (hs : Follows m u.enc s) (hbytes : m.readBytes u.enc.opos out.length = some out) :
    ∃ j t, Runs j s t ∧ Follows m v.enc t ∧
      j + (u.enc.core.n.toNat - u.enc.core.runcnt.toNat) =
        v.enc.core.n.toNat - v.enc.core.runcnt.toNat := by
  obtain ⟨hcount, hle, -, -⟩ := h.running.counting.enc h.running.busy
  have hin : u.enc.core.n.toNat < (u.enc.job m).size := hcount.inside
  have h30 := hcount.runcnt
  have hpixel := h.pixel
  unfold Follows at hs ⊢
  rw [h.job m, h.stepped.core.prev, h.stepped.opos, h.stepped.core.runcnt, h.n_succ]
  rw [State.passTurn_enc]
  cases h.emits with
  | count hp h31 hl =>
    have hrc : (u.enc.core.runcnt + 1).toNat = u.enc.core.runcnt.toNat + 1 := by bv_omega
    rw [hrc, Nat.add_sub_add_right, h.slots_of_repeat, hp]
    exact ⟨0, s, Runs.refl s, hs, Nat.zero_add _⟩
  | flush hp hend =>
    obtain ⟨t, hrun, hat⟩ := hs.run_opcode h30 hbytes (by omega) fun k hk hk' => by
      rcases Nat.lt_or_eq_of_le (show k ≤ u.enc.core.n.toNat by omega) with hlt | rfl
      · exact h.run_image hk hlt
      · exact hpixel.trans hp
    refine ⟨_, t, hrun, ?_, ?_⟩
    · rw [h.slots_of_repeat, hp]
      rwa [← Nat.add_assoc, Nat.sub_add_cancel hle] at hat
    · rw [show (0 : BitVec 5).toNat = 0 from rfl]
      omega
  | colour hp =>
    obtain ⟨hpending, hcolour⟩ := readBytes_append hbytes
    obtain ⟨t, hrun, hat⟩ := hs.pending_run hpending (by omega) fun k hk hk' =>
      h.run_image hk (by omega)
    rw [Nat.sub_add_cancel hle] at hat
    have hstepped := h.stepped.core
    rw [← hpixel] at hstepped hcolour
    obtain ⟨t', hrun', hat'⟩ := hat.colour hin (h.running.history.enc h.running.busy).1.pred hstepped
      hcolour
    refine ⟨_, t', hrun.trans hrun', ?_, ?_⟩
    · rw [List.length_append, ← Nat.add_assoc, ← hpixel]
      exact hat'
    · rw [show (0 : BitVec 5).toNat = 0 from rfl]
      omega

/-- What a step emitted stands in every stream that agrees with the encoder's. -/
theorem readBytes (h : EncoderPixel u v px out rc colour) {m : Memory}
    (hm : ∀ a, a < v.enc.opos → Cells.read m a = Cells.read v.enc.stream a) :
    m.readBytes u.enc.opos out.length = some out := by
  refine (Memory.readBytes_eq_some_iff _ _ _ _).mpr ⟨rfl, fun i hi => ?_⟩
  have hopos := h.stepped.opos
  rw [State.passTurn_enc] at hopos
  rw [hm _ (by omega)]
  exact h.stepped.emitted i hi

theorem streamGrew (h : EncoderPixel u v px out rc colour) : StreamGrew u.enc v.enc := by
  have hopos := h.stepped.opos
  rw [State.passTurn_enc] at hopos
  have hkept : ∀ a, a < u.enc.opos → Cells.read v.enc.stream a = Cells.read u.enc.stream a :=
    fun a ha => h.stepped.output a (.inl ha)
  refine ⟨by omega, hkept, fun hall a ha => ?_⟩
  rcases Nat.lt_or_ge a u.enc.opos with hlt | hge
  · rw [hkept a hlt]
    exact hall a hlt
  · have hnew := h.stepped.emitted (a - u.enc.opos) (by omega)
    rw [State.passTurn_enc, Nat.add_sub_cancel' hge] at hnew
    rw [hnew]
    rfl

end EncoderPixel

namespace EncoderRun

variable {u v : State}

theorem streamGrew (h : EncoderRun u v) : StreamGrew u.enc v.enc := by
  induction h with
  | last hpix hlast => exact hpix.streamGrew
  | more hpix hnext hrest ih => exact hpix.streamGrew.trans ih

/-- On a stream that holds what the encoder's run emits, a decoder follows it to the end. -/
theorem follows (h : EncoderRun u v) {m : Memory} {s : State} (hs : Follows m u.enc s)
    (hm : ∀ a, a < v.enc.opos → Cells.read m a = Cells.read v.enc.stream a) :
    ∃ j t, Runs j s t ∧ Follows m v.enc t ∧
      j + (u.enc.core.n.toNat - u.enc.core.runcnt.toNat) =
        v.enc.core.n.toNat - v.enc.core.runcnt.toNat := by
  induction h generalizing s with
  | last hpix hlast => exact hpix.follows hs (hpix.readBytes hm)
  | more hpix hnext hrest ih =>
    obtain ⟨hle, hkept, -⟩ := hrest.streamGrew
    obtain ⟨j, t, hrun, hat, hj⟩ := hpix.follows hs
      (hpix.readBytes fun a ha => (hm a (by omega)).trans (hkept a ha))
    obtain ⟨j', t', hrun', hat', hj'⟩ := ih hat hm
    exact ⟨j + j', t', hrun.trans hrun', hat', by omega⟩

end EncoderRun

/-! ### Loading and starting an agent -/

section
variable {s : State} {w h : BitVec 16} {bytes : List Byte}

/-- The encoder loaded with a raw image and started. -/
def Encoder.loaded (w h : BitVec 16) (raw : List Byte) (e : Encoder) : Encoder :=
  ({ e with core := e.core.withDimensions w h, pixels := Memory.ofBytes 0 raw } : Encoder).started

/-- The decoder loaded with a stream and started. -/
def Decoder.loaded (w h : BitVec 16) (bytes : List Byte) (d : Decoder) : Decoder :=
  ({ d with core := d.core.withDimensions w h, stream := Memory.ofBytes 0 bytes } : Decoder).started

theorem runs_load_enc (hb : s.enc.core.state ≠ .busy)
    (hok : (s.enc.core.withDimensions w h).Startable s.cfg) :
    Runs 3 { s with pending := [.writeDimensions .encoder w h, .supplyPixels bytes, .start .encoder] }
      { s with pending := [], enc := s.enc.loaded w h bytes } := by
  refine .head (step_writeDimensions_enc hb rfl) (.head (step_supplyPixels hb rfl) (.single ?_))
  rw [step_start_enc rfl]
  exact congrArg (fun e => Host.Outcome.next { s with pending := [], enc := e })
    (Encoder.start_accepted
      (e := { s.enc with core := s.enc.core.withDimensions w h, pixels := Memory.ofBytes 0 bytes }) hb hok)

theorem runs_load_dec (hb : s.dec.core.state ≠ .busy)
    (hok : (s.dec.core.withDimensions w h).Startable s.cfg) :
    Runs 3 { s with pending := [.writeDimensions .decoder w h, .supplyStream bytes, .start .decoder] }
      { s with pending := [], dec := s.dec.loaded w h bytes } := by
  refine .head (step_writeDimensions_dec hb rfl) (.head (step_supplyStream hb rfl) (.single ?_))
  rw [step_start_dec rfl]
  exact congrArg (fun d => Host.Outcome.next { s with pending := [], dec := d })
    (Decoder.start_accepted
      (d := { s.dec with core := s.dec.core.withDimensions w h, stream := Memory.ofBytes 0 bytes }) hb hok)

end

/-- A raw image of the right length has all its pixels. -/
theorem readPixel_ofBytes_isSome {raw : List Byte} {k : Nat} (h : 3 * k + 2 < raw.length) :
    ((Memory.ofBytes 0 raw).readPixel k).isSome := by
  refine Option.isSome_iff_exists.mpr ⟨⟨raw[3 * k + 2], raw[3 * k + 1], raw[3 * k]⟩, ?_⟩
  simp only [Memory.readPixel_eq_some_iff, read_ofBytes_zero]
  exact ⟨List.getElem?_eq_getElem _, List.getElem?_eq_getElem _, List.getElem?_eq_getElem _⟩

theorem encoderRunning_loaded {s : State} {w h : BitVec 16} {raw : List Byte}
    (hdec : s.dec.core.state ≠ .busy) (hok : (s.enc.core.withDimensions w h).Startable s.cfg)
    (hraw : raw.length = 3 * (w.toNat * h.toNat)) :
    EncoderRunning { s with pending := [], enc := s.enc.loaded w h raw } where
  counting := ⟨fun _ => Encoder.started_counts hok, fun hb => absurd hb hdec⟩
  history := ⟨fun _ => Encoder.started_recalls (cfg := s.cfg) hok, fun hb => absurd hb hdec⟩
  pending := rfl
  busy := rfl
  alone := hdec
  ready k hk := readPixel_ofBytes_isSome (by
    have hk' : k < w.toNat * h.toNat := hk
    omega)

/-- A decoder loaded with a stream follows an encoder loaded with an image, from the first pixel on. -/
theorem follows_loaded {s : State} {e : Encoder} {w h : BitVec 16} {raw bytes : List Byte}
    (henc : s.enc.core.state ≠ .busy) (hok : (s.dec.core.withDimensions w h).Startable s.cfg) :
    Follows (Memory.ofBytes 0 bytes) (e.loaded w h raw)
      { s with pending := [], dec := s.dec.loaded w h bytes } where
  counting := ⟨fun hb => absurd hb henc, fun _ => Decoder.started_counts hok⟩
  history := ⟨fun hb => absurd hb henc, fun _ => Decoder.started_recalls (cfg := s.cfg) hok⟩
  pending := rfl
  alone := henc
  width := rfl
  height := rfl
  stream := rfl
  slots i := ((s.dec.core.withDimensions w h).initial_slot i).trans
    ((e.core.withDimensions w h).initial_slot i).symm
  prev := rfl
  index := rfl
  ipos := rfl
  runcnt := rfl
  state := (if_neg (Nat.ne_of_lt (Nat.mul_pos hok.1 hok.2.1))).symm
  pixels k hk := absurd hk (Nat.not_lt_zero k)

/-! ### The round trip -/

/-- The bytes the encoder has emitted are its result at DONE, and they laid out from 0 are its stream. -/
theorem EncoderRun.result {s : State} {w h : BitVec 16} {raw : List Byte} {t : State}
    (hrun : EncoderRun { s with pending := [], enc := s.enc.loaded w h raw } t) :
    ∃ bs, t.enc.result = some bs ∧
      ∀ a, a < t.enc.opos → Cells.read (Memory.ofBytes 0 bs) a = Cells.read t.enc.stream a := by
  have hall := hrun.streamGrew.filled fun a ha => absurd ha (Nat.not_lt_zero a)
  have hdone := hrun.ended.state
  cases hread : t.enc.stream.readBytes 0 t.enc.opos with
  | none =>
    obtain ⟨a, ha, hnone⟩ := (Memory.readBytes_eq_none_iff _ _ _).mp hread
    have hsome := hall a ha
    rw [Nat.zero_add] at hnone
    rw [hnone] at hsome
    cases hsome
  | some bs =>
    have hresult : t.enc.result = some bs := (if_pos hdone).trans hread
    obtain ⟨hlen, hbytes⟩ := (Encoder.result_eq_some_iff hdone).mp hresult
    refine ⟨bs, hresult, fun a ha => ?_⟩
    rw [read_ofBytes_zero, hbytes a (hlen ▸ ha), List.getElem?_eq_getElem]

/-- The raw bytes of equal pixels are equal (R62). -/
theorem read_eq_of_readPixel_eq {m m' : Memory} {k : Nat} (h : m.readPixel k = m'.readPixel k)
    (hsome : (m.readPixel k).isSome) {i : Nat} (hi : i < 3) :
    Cells.read m (3 * k + i) = Cells.read m' (3 * k + i) := by
  obtain ⟨p, hp⟩ := Option.isSome_iff_exists.mp hsome
  obtain ⟨hb, hg, hr⟩ := Memory.readPixel_eq_some_iff.mp hp
  obtain ⟨hb', hg', hr'⟩ := Memory.readPixel_eq_some_iff.mp (h ▸ hp)
  match i, hi with
  | 0, _ => exact hb.trans hb'.symm
  | 1, _ => exact hg.trans hg'.symm
  | 2, _ => exact hr.trans hr'.symm

/-- An output whose pixels are those of a raw image holds its bytes. -/
theorem readBytes_of_pixels {m : Memory} {raw : List Byte} {size : Nat} (hraw : raw.length = 3 * size)
    (h : ∀ k, k < size → m.readPixel k = (Memory.ofBytes 0 raw).readPixel k) :
    m.readBytes 0 (3 * size) = some raw := by
  refine (Memory.readBytes_eq_some_iff _ _ _ _).mpr ⟨hraw, fun i hi => ?_⟩
  have hk : i / 3 < size := by omega
  have hbyte := read_eq_of_readPixel_eq (h _ hk).symm (readPixel_ofBytes_isSome (by omega))
    (Nat.mod_lt i (by decide))
  rw [Nat.div_add_mod, read_ofBytes_zero, List.getElem?_eq_getElem hi] at hbyte
  rw [Nat.zero_add, hbyte]

theorem EncoderRun.pixels {u v : State} (h : EncoderRun u v) : v.enc.pixels = u.enc.pixels := by
  induction h with
  | last hpix hlast => exact hpix.stepped.input
  | more hpix hnext hrest ih => exact ih.trans hpix.stepped.input

theorem EncoderRun.dimensions {u v : State} (h : EncoderRun u v) :
    v.enc.core.width = u.enc.core.width ∧ v.enc.core.height = u.enc.core.height := by
  induction h with
  | last hpix hlast => exact ⟨hpix.width, hpix.height⟩
  | more hpix hnext hrest ih => exact ⟨ih.1.trans hpix.width, ih.2.trans hpix.height⟩

/-- A decoder that has followed an encoder to the end of its run has the encoder's input as its result. -/
theorem Follows.result {m : Memory} {u v s : State} {raw : List Byte} (hs : Follows m v.enc s)
    (hrun : EncoderRun u v) (hraw : raw.length = 3 * (u.enc.core.width.toNat * u.enc.core.height.toNat))
    (hpixels : u.enc.pixels = Memory.ofBytes 0 raw) : s.dec.result = some raw := by
  have hend := hrun.ended
  obtain ⟨hw, hh⟩ := hrun.dimensions
  have hn : v.enc.core.n.toNat - v.enc.core.runcnt.toNat =
      u.enc.core.width.toNat * u.enc.core.height.toNat := by
    rw [hend.runcnt, hend.n]
    rfl
  unfold Follows at hs
  rw [hn] at hs
  have hsize : (v.enc.job m).size = u.enc.core.width.toNat * u.enc.core.height.toNat := by
    rw [Job.size, Encoder.job, hw, hh]
  have hdone : s.dec.core.state = .done := hs.state.trans (if_pos hsize.symm)
  have hdim : s.dec.core.width.toNat * s.dec.core.height.toNat =
      u.enc.core.width.toNat * u.enc.core.height.toNat := by
    rw [hs.width, hs.height]
    exact hsize
  rw [Decoder.result, if_pos hdone, hdim]
  refine readBytes_of_pixels hraw fun k hk => ?_
  obtain ⟨p, hp⟩ := Option.isSome_iff_exists.mp
    (readPixel_ofBytes_isSome (raw := raw) (k := k) (by omega))
  have himage : v.enc.image k = p :=
    Encoder.image_of_readPixel (by rw [hrun.pixels, hpixels]; exact hp)
  rw [hs.pixels k hk, hp]
  exact congrArg some himage

/-- Settles O60: the encoder runs to its end, and the decoder loaded with its result follows it there. -/
theorem roundTrip : Obligations.RoundTrip := by
  intro s w h raw hp henc hdec hw hh hfit hraw
  have hrunning := encoderRunning_loaded (s := s) (w := w) (h := h) hdec ⟨hw, hh, hfit⟩ hraw
  obtain ⟨s1, hrun1, hencoded⟩ := hrunning.runs (left := w.toNat * h.toNat) (Nat.zero_add _)
  have hend := hencoded.ended
  obtain ⟨bs, hresult, hbytes⟩ := hencoded.result
  have henc1 : s1.enc.core.state ≠ .busy := by rw [hend.state]; decide
  have hdec1 : s1.dec.core.state ≠ .busy := by rw [hend.decoder]; exact hdec
  have hok1 : (s1.dec.core.withDimensions w h).Startable s1.cfg := ⟨hw, hh, by rw [hend.cfg]; exact hfit⟩
  obtain ⟨j, s2, hrun2, hat, hj⟩ := hencoded.follows (follows_loaded henc1 hok1) hbytes
  have hsteps : j = w.toNat * h.toNat := by
    rw [hend.runcnt, hend.n] at hj
    exact hj
  rw [hsteps] at hrun2
  exact ⟨s1, bs, s2, (runs_load_enc henc ⟨hw, hh, hfit⟩).trans hrun1, hresult,
    (runs_load_dec hdec1 hok1).trans hrun2, hat.result hencoded hraw rfl⟩

end Sys2Proof.Machine
end
